-- ==== Sys2Proof/Word.lean ====
section
/-! DEFINITION. The word types of SIXBIT-CORE: only what the spec treats as bits. -/

namespace Sys2Proof

/-- A byte of a buffer, a character code or a packed byte (00_scope.md R9). -/
abbrev Byte := BitVec 8

/-- A 6-bit value: one lane of a group (00_scope.md R14). -/
abbrev Sixbit := BitVec 6

/-- A 24-bit group: three bytes, or four lanes (30_encoding.md R64, R65). -/
abbrev Group := BitVec 24

/-- The command word CW (30_encoding.md R60). -/
abbrev CmdWord := BitVec 32

end Sys2Proof
end

