-- ==== Sys2Proof/Config.lean ====
section
/-! DEFINITION. The implementation parameters of an instance (00_scope.md R8): fixed straps no command reads as data
or writes (10_state.md R24). State holds them, so every statement about every state holds for every configuration.
The spec leaves no result open with the machine going on, so there is no free value here. -/

namespace Sys2Proof

/-- `REM0_RULE`: how a byte count with remainder 0 is read back (00_scope.md R8, 43_envelope.md R162, 90_conflicts.md C1). -/
inductive Rem0Rule where
  /-- `COUNT`, the default: `4q` characters. -/
  | count
  /-- `TRAILING_ZERO_SHORTER`: `4q - 1` characters when the last byte's low 6 bits are zero. -/
  | trailingZeroShorter
  deriving DecidableEq, Repr

/-- The straps of an instance (00_scope.md R8). -/
structure Straps where
  /-- `MARKER`, the reserved trailing byte of an envelope. -/
  marker : Byte
  /-- `REM0_RULE`. -/
  rem0Rule : Rem0Rule
  /-- `MAX_LEN`, the largest character count; `none` is `INF`. -/
  maxLen : Option Nat
  /-- `W_LEN`, the number of bits of a length port; `none` is an unbounded natural number. -/
  wLen : Option Nat
  deriving DecidableEq, Repr

/-- The default values of 00_scope.md R8. `W_LEN` is OPEN there; with `MAX_LEN = INF` lengths are unbounded naturals
(DESIGN CHOICE, safe or unsafe: see log 1). -/
def Straps.standard : Straps :=
  { marker := 0x03, rem0Rule := .count, maxLen := none, wLen := none }

/-- The width of a length port that limits a length: `W_LEN` bits, and "a natural number when `MAX_LEN = INF`"
(10_state.md R22). -/
def Straps.lenWidth (st : Straps) : Option Nat :=
  match st.maxLen with
  | none => none
  | some _ => st.wLen

end Sys2Proof
end

