-- ==== Sys2Proof/Syntax.lean ====
section
/-! DEFINITION. The twelve commands of 30_encoding.md R61 as an inductive, and the command descriptor the host presents
(R60). The operands in the command word are the constructor's arguments; `LEN` and `SRC` are ports (10_state.md R22),
which a meaning reads from the state. -/

namespace Sys2Proof

/-- The commands, one constructor for each row of spec/opcode_table.json, in the order of `OP` (30_encoding.md R61). -/
inductive Instr where
  /-- ENC, the checked encoder (41_encode.md R104). -/
  | enc
  /-- ENCU, the unchecked encoder (41_encode.md R105). -/
  | encu
  /-- DEC, the checked decoder (42_decode.md R133). -/
  | dec
  /-- DECU, the unchecked decoder (42_decode.md R134). -/
  | decu
  /-- DECS, the stricter checked decoder (42_decode.md R135). -/
  | decs
  /-- ENVB, envelope from text (43_envelope.md R164). -/
  | envb
  /-- ENVP, envelope from raw bytes (43_envelope.md R165). -/
  | envp
  /-- ENVR, envelope to text (43_envelope.md R166). -/
  | envr
  /-- GENC, the line encoder on one group: `KM1` and `VIN` (41_encode.md R103). -/
  | genc (km1 : BitVec 2) (vin : Group)
  /-- GDEC, the line decoder on one group: `KM1` and `YIN` (42_decode.md R132). -/
  | gdec (km1 : BitVec 2) (yin : Group)
  /-- MDET, the marker detector, append side: `LAST` (43_envelope.md R161). -/
  | mdet (last : Byte)
  /-- LREC, the marker detector, reconstruct side: `LAST` (43_envelope.md R163). -/
  | lrec (last : Byte)
  deriving DecidableEq, Repr

/-- A command descriptor: the command word, the length operand and the source buffer (30_encoding.md R60). -/
structure Command where
  cw : CmdWord
  len : Nat
  src : List Byte
  deriving DecidableEq, Repr

end Sys2Proof
end

