-- ==== Sys2Proof/WellFormed.lean ====
section
/-! DEFINITION. What the spec asks of a configuration, a command and an instruction before its rules hold. -/

namespace Sys2Proof

/-- The constraint on `MARKER`: `MARKER[1:0] != 0b00` (00_scope.md R8, 70_reset_and_hazards.md R231). -/
def Straps.markerOk (st : Straps) : Bool :=
  st.marker.extractLsb' 0 2 != 0

/-- The constraint on the lengths: `MAX_LEN < 2^W_LEN` when both are finite (70_reset_and_hazards.md R231). -/
def Straps.lengthsOk (st : Straps) : Bool :=
  match st.maxLen, st.wLen with
  | some n, some w => decide (n < 2 ^ w)
  | _, _ => true

/-- "The only precondition is on the configuration" (70_reset_and_hazards.md R231). -/
def Straps.wf (st : Straps) : Bool :=
  st.markerOk && st.lengthsOk

/-- A length the instance's length port can carry (10_state.md R22, 30_encoding.md R60). -/
def Straps.lenFits (st : Straps) (n : Nat) : Bool :=
  match st.lenWidth with
  | some w => decide (n < 2 ^ w)
  | none => true

/-- A command the command port can carry: every `CW` and every `SRC` can be presented, and `LEN` must fit its port
(30_encoding.md R60). -/
def Command.wf (st : Straps) (c : Command) : Bool :=
  st.lenFits c.len

/-- Every field of an instruction has the width the encoding gives it and every value of it is legal (30_encoding.md
R63, 41_encode.md R103, 42_decode.md R132), so there is nothing more to check. -/
def Instr.wf : Instr → Bool
  | .enc => true
  | .encu => true
  | .dec => true
  | .decu => true
  | .decs => true
  | .envb => true
  | .envp => true
  | .envr => true
  | .genc _ _ => true
  | .gdec _ _ => true
  | .mdet _ => true
  | .lrec _ => true

end Sys2Proof
end

