-- ==== Sys2Proof/Decode.lean ====
section
/-! DEFINITION. The fields of the command word, the decoder and the encoder (30_encoding.md R60 to R65).
A command word is presented whole on the command port (20_memory.md R52), so decoding takes a 32-bit word, not bytes. -/

namespace Sys2Proof

/-- `OP = CW[3:0]` (R60). -/
def opField (w : CmdWord) : BitVec 4 := w.extractLsb' 0 4

/-- `KM1 = CW[5:4]` (R60). -/
def km1Field (w : CmdWord) : BitVec 2 := w.extractLsb' 4 2

/-- `DATA24 = CW[31:8]`: `VIN` of GENC, `YIN` of GDEC (R60). -/
def data24Field (w : CmdWord) : Group := w.extractLsb' 8 24

/-- `LAST = CW[15:8]` (R60). -/
def lastField (w : CmdWord) : Byte := w.extractLsb' 8 8

/-- Why the decoder refuses a command word. -/
inductive DecodeError where
  /-- `OP` is `0xC` to `0xF` (R62). -/
  | reservedOp (op : BitVec 4)
  deriving DecidableEq, Repr

/-- The opcode map (R61). Reserved `OP` values are refused by name (R62); every field a command does not use, `CW[7:6]`
among them, is ignored (R60, R75). -/
def decode (w : CmdWord) : Except DecodeError Instr :=
  match (opField w).toNat with
  | 0x0 => .ok .enc
  | 0x1 => .ok .encu
  | 0x2 => .ok .dec
  | 0x3 => .ok .decu
  | 0x4 => .ok .decs
  | 0x5 => .ok .envb
  | 0x6 => .ok .envp
  | 0x7 => .ok .envr
  | 0x8 => .ok (.genc (km1Field w) (data24Field w))
  | 0x9 => .ok (.gdec (km1Field w) (data24Field w))
  | 0xA => .ok (.mdet (lastField w))
  | 0xB => .ok (.lrec (lastField w))
  | _ => .error (.reservedOp (opField w))

/-- The `OP` value of a command (R61). -/
def Instr.op : Instr → BitVec 4
  | .enc => 0x0
  | .encu => 0x1
  | .dec => 0x2
  | .decu => 0x3
  | .decs => 0x4
  | .envb => 0x5
  | .envp => 0x6
  | .envr => 0x7
  | .genc _ _ => 0x8
  | .gdec _ _ => 0x9
  | .mdet _ => 0xA
  | .lrec _ => 0xB

/-- The command word an assembler writes: the fields of R60, with every unused bit 0 (R60, R77). -/
def encode (i : Instr) : CmdWord :=
  match i with
  | .enc => 0#28 ++ Instr.enc.op
  | .encu => 0#28 ++ Instr.encu.op
  | .dec => 0#28 ++ Instr.dec.op
  | .decu => 0#28 ++ Instr.decu.op
  | .decs => 0#28 ++ Instr.decs.op
  | .envb => 0#28 ++ Instr.envb.op
  | .envp => 0#28 ++ Instr.envp.op
  | .envr => 0#28 ++ Instr.envr.op
  | .genc km1 vin => vin ++ 0#2 ++ km1 ++ (Instr.genc km1 vin).op
  | .gdec km1 yin => yin ++ 0#2 ++ km1 ++ (Instr.gdec km1 yin).op
  | .mdet last => 0#16 ++ last ++ 0#4 ++ (Instr.mdet last).op
  | .lrec last => 0#16 ++ last ++ 0#4 ++ (Instr.lrec last).op

/-- The bits of the command word a command uses (R60, R61, the `encoding` patterns of spec/opcode_table.json). -/
def Instr.usedBits : Instr → CmdWord
  | .enc => 0x0000000F
  | .encu => 0x0000000F
  | .dec => 0x0000000F
  | .decu => 0x0000000F
  | .decs => 0x0000000F
  | .envb => 0x0000000F
  | .envp => 0x0000000F
  | .envr => 0x0000000F
  | .genc _ _ => 0xFFFFFF3F
  | .gdec _ _ => 0xFFFFFF3F
  | .mdet _ => 0x0000FF0F
  | .lrec _ => 0x0000FF0F

/-- The command word whose low `nbits` bits are `w`'s and whose other bits are 0. -/
def tableWord (nbits w : Nat) : CmdWord := BitVec.ofNat 32 (w % 2 ^ nbits)

/-- The instruction the decoder reads from the command word `tableWord nbits w`; a word of more than 32 bits is no
command word (30_encoding.md R76). -/
def decodeTableWord (nbits w : Nat) : Option Instr :=
  if nbits ≤ 32 then
    match decode (tableWord nbits w) with
    | .ok i => some i
    | .error _ => none
  else none

end Sys2Proof
end

