-- ==== Sys2Proof/Machine/State.lean ====
section
/-! DEFINITION. The state of the machine as plain data: the straps, the command ports, the response ports, and what the
host holds (10_state.md R20 to R29), with the reasons a step can stop. -/

namespace Sys2Proof.Machine

/-- The response ports (10_state.md R23). -/
inductive Port where
  | status
  | idx
  | code
  | olen
  | flag
  | m
  | wout
  | dst
  deriving DecidableEq, Repr

/-- The outcome codes of `STATUS` by name (30_encoding.md R67). -/
inductive Status where
  | ok
  | invalidCharacter
  | invalidBytesLength
  | invalidSixbitValue
  | malformedEnvelope
  | illegalOp
  | capacity
  deriving DecidableEq, Repr

/-- What the response ports carry; `none` is the spec's "no value" (10_state.md R23, R29). -/
structure Response where
  status : Option (BitVec 4)
  idx : Option Nat
  code : Option Byte
  olen : Option Nat
  flag : Option Bool
  m : Option (BitVec 2)
  wout : Option Group
  dst : Option (List Byte)
  deriving DecidableEq, Repr

/-- No port carries a value (10_state.md R29). -/
def Response.empty : Response :=
  { status := none, idx := none, code := none, olen := none, flag := none, m := none, wout := none, dst := none }

/-- What a read of a response port delivers to the host (10_state.md R23). -/
inductive PortValue where
  | status (v : BitVec 4)
  | idx (v : Nat)
  | code (v : Byte)
  | olen (v : Nat)
  | flag (v : Bool)
  | m (v : BitVec 2)
  | wout (v : Group)
  | dst (v : List Byte)
  deriving DecidableEq, Repr

/-- An envelope value: the host-held pair `(ENV_BYTES, ENV_LEN)` (10_state.md R27). -/
structure Envelope where
  envBytes : List Byte
  envLen : Nat
  deriving DecidableEq, Repr

/-- What the host, the other agent (00_scope.md R6), can do to the block between steps (log 5). -/
inductive HostAct where
  /-- Present a command on the command port (10_state.md R22); waits while a command is in progress (20_memory.md R50). -/
  | issue (c : Command)
  /-- Read a response port (10_state.md R23); waits while a command is in progress. -/
  | readPort (p : Port)
  /-- Keep the envelope a response of ENVB or ENVP holds (10_state.md R27, R28); waits while a command is in progress. -/
  | keepEnvelope
  /-- Change the source buffer, at once (70_reset_and_hazards.md R232). -/
  | changeSrc (b : List Byte)
  /-- Assert reset, at once (70_reset_and_hazards.md R230). -/
  | assertReset
  deriving DecidableEq, Repr

/-- The state of an instance and of what the host holds of it. -/
structure State where
  /-- The parameters of the instance (10_state.md R24). -/
  straps : Straps
  /-- The command word on the command port; `none` when no command is issued and not yet answered (10_state.md R22, R29). -/
  cw : Option CmdWord
  /-- The `LEN` command port (10_state.md R22). -/
  len : Nat
  /-- The `SRC` command port: the source buffer (10_state.md R22, 20_memory.md R40). -/
  src : List Byte
  /-- The response ports (10_state.md R23). -/
  resp : Response
  /-- The envelope values the host holds, oldest first (10_state.md R27, R29). -/
  envelopes : List Envelope
  /-- The model's own field: what the host will do, in order (log 5). -/
  host : List HostAct
  deriving DecidableEq, Repr

/-- Why the machine stops with a fault. -/
inductive Fault where
  /-- Raised by ENCU, DECU and ENVR when the caller's contract is broken (60_exceptions.md R206). Safe: the model admits
  no outcome where the document leaves the result undefined. -/
  | uncheckedContract
  /-- Raised by the host's read of a response port that carries no value (10_state.md R23, R29). Safe: no value is
  assumed. -/
  | portHasNoValue (p : Port)
  deriving DecidableEq, Repr

/-- Why a step has no meaning. -/
inductive Refusal where
  /-- Raised by `exec` for an instruction that has no meaning yet; no arm does so. Safe. -/
  | notModelled (mnemonic : String)
  /-- Raised when the host changes `SRC` while a command is in progress (70_reset_and_hazards.md R232: "a model has no
  meaning for such a run and must refuse it"). Safe. -/
  | srcChangedWhileRunning
  /-- Raised when the host would issue a command whose `LEN` does not fit the `W_LEN` bits of its port (30_encoding.md
  R60; log 10). Safe: no hardware can be given such a command. -/
  | lenNotRepresentable
  deriving DecidableEq, Repr

/-- The outcome of one step. -/
abbrev Result := Host.Outcome State Fault Refusal

/-- An instance with the straps `st` right after reset, before the host has done anything (10_state.md R29). -/
def State.resetWith (st : Straps) : State :=
  { straps := st, cw := none, len := 0, src := [], resp := Response.empty, envelopes := [], host := [] }

/-- The machine right after reset, with the default parameters of 00_scope.md R8 (10_state.md R29; logs 1, 2, 5, 16). -/
def State.reset : State := State.resetWith Straps.standard

end Sys2Proof.Machine
end

