-- ==== Sys2Proof/Machine/Operands.lean ====
section
/-! DEFINITION. Operands: buffer reads, the packed byte count, the group size, and the lanes and bytes of a 24-bit group. -/

namespace Sys2Proof.Machine

/-- `MemRead(SRC+i, 1)`: the byte at index `i`, for `i < len(SRC)`; there is no byte beyond (20_memory.md R41). -/
def memRead (b : List Byte) (i : Nat) : Option Byte := b[i]?

/-- `need(n)`, the packed byte count of `n` characters, in the exact form of 00_scope.md R12. -/
def need (n : Nat) : Nat := 3 * (n / 4) + n % 4

/-- `G = ceil(n/4)`, the number of groups of `n` characters (10_state.md R21). -/
def groupCount (n : Nat) : Nat := (n + 3) / 4

/-- `K = KM1 + 1` (30_encoding.md R63). -/
def groupSize (km1 : BitVec 2) : Nat := km1.toNat + 1

/-- Lane `a` of a group: bits 23:18 (30_encoding.md R64). -/
def laneA (v : Group) : Sixbit := v.extractLsb' 18 6
/-- Lane `b` of a group: bits 17:12 (R64). -/
def laneB (v : Group) : Sixbit := v.extractLsb' 12 6
/-- Lane `c` of a group: bits 11:6 (R64). -/
def laneC (v : Group) : Sixbit := v.extractLsb' 6 6
/-- Lane `d` of a group: bits 5:0 (R64). -/
def laneD (v : Group) : Sixbit := v.extractLsb' 0 6

/-- Byte 0 of a group: bits 23:16 (30_encoding.md R65). -/
def groupByte0 (v : Group) : Byte := v.extractLsb' 16 8
/-- Byte 1 of a group: bits 15:8 (R65). -/
def groupByte1 (v : Group) : Byte := v.extractLsb' 8 8
/-- Byte 2 of a group: bits 7:0 (R65). -/
def groupByte2 (v : Group) : Byte := v.extractLsb' 0 8

/-- `{y0, y1, y2}`: three bytes as a group (30_encoding.md R65, R66). -/
def groupOfBytes (y0 y1 y2 : Byte) : Group := y0 ++ y1 ++ y2

/-- `{a, b, c, d}`: four lanes as a group (30_encoding.md R64, R66). -/
def groupOfLanes (a b c d : Sixbit) : Group := a ++ b ++ c ++ d

end Sys2Proof.Machine
end

