-- ==== Sys2Proof/Machine/Flags.lean ====
section
/-! DEFINITION. The status codes and the units that compute `FLAG`: U_MDET and U_LREC (10_state.md R25, 43_envelope.md). -/

namespace Sys2Proof.Machine

/-- The code of a status on the 4-bit `STATUS` port (30_encoding.md R67). -/
def Status.toCode : Status → BitVec 4
  | .ok => 0
  | .invalidCharacter => 1
  | .invalidBytesLength => 2
  | .invalidSixbitValue => 3
  | .malformedEnvelope => 4
  | .illegalOp => 5
  | .capacity => 6

/-- `v[5:0] = 0b000000`, the trailing-zero test of U_MDET and U_LREC (43_envelope.md R160, R162). -/
def lowSixZero (last : Byte) : Bool := last.extractLsb' 0 6 == 0

/-- U_MDET: does an encoded text of length `n` whose last packed byte is `last` need the marker (43_envelope.md R160). -/
def uMdet (n : Nat) (last : Byte) : Bool :=
  decide (0 < n) && decide (n % 4 = 0) && lowSixZero last

/-- The outputs of U_LREC (43_envelope.md R162): the recovered length, the strip bit and the malformed bit. -/
structure LrecOut where
  length : Nat
  strip : Bool
  malf : Bool
  deriving DecidableEq, Repr

/-- U_LREC: recover the length from a byte count and the last byte (43_envelope.md R162). `malf` is never 1: a byte
count modulo 3 is 0, 1 or 2 (60_exceptions.md R205). -/
def uLrec (st : Straps) (nb : Nat) (last : Byte) : LrecOut :=
  let q := nb / 3
  if nb % 3 = 0 then
    if st.rem0Rule = .trailingZeroShorter ∧ 0 < q ∧ lowSixZero last = true then
      { length := 4 * q - 1, strip := false, malf := false }
    else
      { length := 4 * q, strip := false, malf := false }
  else if nb % 3 = 1 then
    if last = st.marker then
      { length := 4 * q, strip := true, malf := false }
    else
      { length := 4 * q + 1, strip := false, malf := false }
  else
    { length := 4 * q + 2, strip := false, malf := false }

end Sys2Proof.Machine
end

