-- ==== Sys2Proof/Machine/Units.lean ====
section
/-! DEFINITION. The combinational units U_CIN, U_ENC, U_DEC and U_COUT, and the sequencers PACK and UNPACK that apply
them group by group (41_encode.md, 42_decode.md). -/

namespace Sys2Proof.Machine

/-- The outputs of U_CIN (41_encode.md R100). -/
structure CinOut where
  ok : Bool
  v : Sixbit
  deriving DecidableEq, Repr

/-- U_CIN, the character mapper: is the code in 32..95, and its 6-bit value (41_encode.md R100, 30_encoding.md R68, R69).
`v` is meaningful only when `ok`. -/
def uCin (x : Byte) : CinOut :=
  { ok := decide (0x20 ≤ x.toNat) && decide (x.toNat ≤ 0x5F), v := (x - 0x20#8).setWidth 6 }

/-- `firstInvalid(s)`: the least index whose code is outside 32..95 (41_encode.md R101). -/
def firstInvalid (s : List Byte) : Option Nat := s.findIdx? (fun x => !(uCin x).ok)

/-- The outputs of U_ENC (41_encode.md R102). -/
structure EncOut where
  y0 : Byte
  y1 : Byte
  y2 : Byte
  m : Nat
  deriving DecidableEq, Repr

/-- U_ENC, the 6b-to-8b line encoder, with the document's formulas; lanes at index `k` and above count as zero
(41_encode.md R102, 30_encoding.md R70, R71). -/
def uEnc (a b c d : Sixbit) (k : Nat) : EncOut :=
  let b' : Byte := if 2 ≤ k then b.setWidth 8 else 0
  let c' : Byte := if 3 ≤ k then c.setWidth 8 else 0
  let d' : Byte := if 4 ≤ k then d.setWidth 8 else 0
  { y0 := (a.setWidth 8 <<< 2) ||| (b' >>> 4)
    y1 := ((b' &&& 0xF) <<< 4) ||| (c' >>> 2)
    y2 := ((c' &&& 0x3) <<< 6) ||| d'
    m := min k 3 }

/-- The outputs of U_DEC (42_decode.md R130). -/
structure DecOut where
  a : Sixbit
  b : Sixbit
  c : Sixbit
  d : Sixbit
  deriving DecidableEq, Repr

/-- U_DEC, the 8b-to-6b line decoder; lanes at index `k` and above are zero (42_decode.md R130). -/
def uDec (y0 y1 y2 : Byte) (k : Nat) : DecOut :=
  { a := (y0 >>> 2).setWidth 6
    b := if 2 ≤ k then (((y0 &&& 0x3) <<< 4) ||| (y1 >>> 4)).setWidth 6 else 0
    c := if 3 ≤ k then (((y1 &&& 0xF) <<< 2) ||| (y2 >>> 6)).setWidth 6 else 0
    d := if 4 ≤ k then (y2 &&& 0x3F).setWidth 6 else 0 }

/-- U_COUT: the code `v + 32` (42_decode.md R131). -/
def uCout (v : Sixbit) : Byte := v.setWidth 8 + 32#8

/-- `v_l` of PACK's group `g`: `U_CIN(s[4g+l]).v` for a lane below `k`, else 0 (41_encode.md R106). -/
def packLane (s : List Byte) (g k l : Nat) : Sixbit :=
  if l < k then
    match memRead s (4 * g + l) with
    | some x => (uCin x).v
    | none => 0
  else 0

/-- The bytes of PACK's group `g` (41_encode.md R106). -/
def packGroup (s : List Byte) (g : Nat) : List Byte :=
  let k := min 4 (s.length - 4 * g)
  let e := uEnc (packLane s g k 0) (packLane s g k 1) (packLane s g k 2) (packLane s g k 3) k
  [e.y0, e.y1, e.y2].take e.m

/-- PACK: the groups `0 .. G-1` in ascending order (41_encode.md R106). -/
def pack (s : List Byte) : List Byte :=
  (List.range (groupCount s.length)).flatMap (packGroup s)

/-- `y_j` of UNPACK's group `g`: `MemRead(SRC+3g+j, 1)` for a byte below `m`, else 0 (42_decode.md R136). -/
def unpackByte (s : List Byte) (g m j : Nat) : Byte :=
  if j < m then
    match memRead s (3 * g + j) with
    | some y => y
    | none => 0
  else 0

/-- The lane values of UNPACK's group `g` of an `n`-character buffer (42_decode.md R136). -/
def unpackGroup (s : List Byte) (n g : Nat) : List Sixbit :=
  let k := min 4 (n - 4 * g)
  let m := min k 3
  let v := uDec (unpackByte s g m 0) (unpackByte s g m 1) (unpackByte s g m 2) k
  [v.a, v.b, v.c, v.d].take k

/-- Every lane value UNPACK extracts, in order (42_decode.md R135, R136). -/
def unpackLanes (s : List Byte) (n : Nat) : List Sixbit :=
  (List.range (groupCount n)).flatMap (unpackGroup s n)

/-- UNPACK: the codes of the extracted lane values (42_decode.md R136). -/
def unpack (s : List Byte) (n : Nat) : List Byte := (unpackLanes s n).map uCout

end Sys2Proof.Machine
end

