-- ==== Sys2Proof/Machine/Ops.lean ====
section
/-! DEFINITION. The operations the meanings share: building the destination buffer, delivering a response, raising an
error status (SIXBIT-CORE's only form of exception, 60_exceptions.md R201, R210), the capacity check, reading a
response port, and the envelope invariant. -/

namespace Sys2Proof.Machine

/-- `MemWrite(DST+i, 1, v)` (20_memory.md R42). -/
def memWrite (b : List Byte) (i : Nat) (v : Byte) : List Byte := b.set i v

/-- One write of the loop that fills a new destination buffer: `MemWrite(DST+j, 1, p[j])` (20_memory.md R42). -/
def fillByte (p d : List Byte) (j : Nat) : List Byte :=
  match memRead p j with
  | some v => memWrite d j v
  | none => d

/-- `for j in 0 .. len(p)-1: MemWrite(DST+j, 1, p[j])` into a new buffer of length `len(p)` (20_memory.md R42, R47). Every
index is written, so what the new buffer holds before is not seen. -/
def fillBuffer (p : List Byte) : List Byte :=
  (List.range p.length).foldl (fillByte p) (List.replicate p.length 0)

/-- Deliver a response: the command is answered and every response port takes the response's value, or none
(10_state.md R23, 20_memory.md R46). Nothing else changes (60_exceptions.md R201). -/
def respond (r : Response) (s : State) : State := { s with cw := none, resp := r }

/-- `return OK(fields)` (00_scope.md R13). -/
def returnOk (r : Response) (s : State) : State := respond { r with status := some Status.ok.toCode } s

/-- `raise Status(code, info)`: an error response carries `STATUS` and the info fields, and no other output (00_scope.md
R13, 60_exceptions.md R201). This is all an exception does here: it saves no state, changes no mode and transfers
control nowhere, so there is no return from it either (60_exceptions.md R210). -/
def raiseStatus (c : Status) (idx : Option Nat) (code : Option Byte) (s : State) : State :=
  respond { Response.empty with status := some c.toCode, idx := idx, code := code } s

/-- `MAX_LEN != INF and n > MAX_LEN` (60_exceptions.md R208). -/
def overCapacity (st : Straps) (n : Nat) : Bool :=
  match st.maxLen with
  | some m => decide (m < n)
  | none => false

/-- The last byte of a buffer, `(nb > 0) ? MemRead(SRC+nb-1, 1) : 0x00` (43_envelope.md R164, R165). -/
def lastByte (b : List Byte) : Byte :=
  if 0 < b.length then
    match memRead b (b.length - 1) with
    | some y => y
    | none => 0
  else 0

/-- Reading a response port: its value, or the fault of a port that carries none (10_state.md R23, R29). -/
def readPort (r : Response) (p : Port) : Except Fault PortValue :=
  let carry (v : Option PortValue) : Except Fault PortValue :=
    match v with
    | some x => .ok x
    | none => .error (.portHasNoValue p)
  match p with
  | .status => carry (r.status.map .status)
  | .idx => carry (r.idx.map .idx)
  | .code => carry (r.code.map .code)
  | .olen => carry (r.olen.map .olen)
  | .flag => carry (r.flag.map .flag)
  | .m => carry (r.m.map .m)
  | .wout => carry (r.wout.map .wout)
  | .dst => carry (r.dst.map .dst)

/-- The envelope invariant of 10_state.md R27. -/
def envelopeOk (st : Straps) (e : Envelope) : Bool :=
  decide (e.envBytes.length = need e.envLen) ||
  (decide (e.envBytes.length = need e.envLen + 1) && decide (e.envLen % 4 = 0) &&
    decide (memRead e.envBytes (e.envBytes.length - 1) = some st.marker))

/-- The accessor for raw bytes: `ENV_BYTES`, marker included when present (43_envelope.md R167). -/
def envelopeRawBytes (e : Envelope) : List Byte := e.envBytes

/-- The accessor for original length: `ENV_LEN` (43_envelope.md R167). -/
def envelopeOriginalLength (e : Envelope) : Nat := e.envLen

end Sys2Proof.Machine
end

