-- ==== Sys2Proof/Machine/Encoder.lean ====
section
/-! DEFINITION. The encoder family: GENC, ENC, ENCU (41_encode.md). -/

namespace Sys2Proof.Machine

/-- ENC (41_encode.md R104). -/
def execEnc (s : State) : Result :=
  if overCapacity s.straps s.src.length then .next (raiseStatus .capacity none none s)
  else
    match firstInvalid s.src with
    | some i => .next (raiseStatus .invalidCharacter (some i) (memRead s.src i) s)
    | none => .next (returnOk { Response.empty with dst := some (fillBuffer (pack s.src)), olen := some s.src.length } s)

/-- ENCU (41_encode.md R105): a broken precondition is the fault of 60_exceptions.md R206. -/
def execEncu (s : State) : Result :=
  if overCapacity s.straps s.src.length then .next (raiseStatus .capacity none none s)
  else
    match firstInvalid s.src with
    | some _ => .fault .uncheckedContract
    | none => .next (returnOk { Response.empty with dst := some (fillBuffer (pack s.src)), olen := some s.src.length } s)

/-- GENC (41_encode.md R103). -/
def execGenc (km1 : BitVec 2) (vin : Group) (s : State) : Result :=
  let e := uEnc (laneA vin) (laneB vin) (laneC vin) (laneD vin) (groupSize km1)
  .next (returnOk { Response.empty with wout := some (groupOfBytes e.y0 e.y1 e.y2), m := some (BitVec.ofNat 2 e.m) } s)

end Sys2Proof.Machine
end

