-- ==== Sys2Proof/Machine/Decoder.lean ====
section
/-! DEFINITION. The decoder family: GDEC, DEC, DECU, DECS (42_decode.md). -/

namespace Sys2Proof.Machine

/-- The response of a decoder whose text is `t` (42_decode.md R133 to R135). -/
def returnText (t : List Byte) (n : Nat) (s : State) : State :=
  returnOk { Response.empty with dst := some (fillBuffer t), olen := some n } s

/-- DEC (42_decode.md R133): the length is checked first, also for `LEN = 0` (90_conflicts.md C5). -/
def execDec (s : State) : Result :=
  if overCapacity s.straps s.len then .next (raiseStatus .capacity none none s)
  else if s.src.length ≠ need s.len then .next (raiseStatus .invalidBytesLength none none s)
  else .next (returnText (unpack s.src s.len) s.len s)

/-- DECU (42_decode.md R134): `LEN = 0` gives the empty text whatever `SRC` holds (90_conflicts.md C5); a broken
precondition is the fault of 60_exceptions.md R206. -/
def execDecu (s : State) : Result :=
  if overCapacity s.straps s.len then .next (raiseStatus .capacity none none s)
  else if s.len = 0 then .next (returnText [] 0 s)
  else if s.src.length ≠ need s.len then .fault .uncheckedContract
  else .next (returnText (unpack s.src s.len) s.len s)

/-- DECS (42_decode.md R135), with the test on every extracted lane value that never succeeds (60_exceptions.md R204). -/
def execDecs (s : State) : Result :=
  if overCapacity s.straps s.len then .next (raiseStatus .capacity none none s)
  else if s.src.length ≠ need s.len then .next (raiseStatus .invalidBytesLength none none s)
  else if (unpackLanes s.src s.len).any (fun v => decide (63 < v.toNat)) then
    .next (raiseStatus .invalidSixbitValue none none s)
  else .next (returnText (unpack s.src s.len) s.len s)

/-- GDEC (42_decode.md R132). -/
def execGdec (km1 : BitVec 2) (yin : Group) (s : State) : Result :=
  let v := uDec (groupByte0 yin) (groupByte1 yin) (groupByte2 yin) (groupSize km1)
  .next (returnOk { Response.empty with wout := some (groupOfLanes v.a v.b v.c v.d) } s)

end Sys2Proof.Machine
end

