-- ==== Sys2Proof/Machine/Enveloper.lean ====
section
/-! DEFINITION. The envelope family: ENVB, ENVP, ENVR, MDET, LREC (43_envelope.md). -/

namespace Sys2Proof.Machine

/-- ENVB (43_envelope.md R164): the last packed byte `P[need(n)-1]` is the last byte of PACK's result. -/
def execEnvb (s : State) : Result :=
  if overCapacity s.straps s.src.length then .next (raiseStatus .capacity none none s)
  else
    match firstInvalid s.src with
    | some i => .next (raiseStatus .invalidCharacter (some i) (memRead s.src i) s)
    | none =>
      let p := pack s.src
      let f := uMdet s.src.length (lastByte p)
      let b := if f then p ++ [s.straps.marker] else p
      .next (returnOk { Response.empty with dst := some (fillBuffer b), olen := some s.src.length, flag := some f } s)

/-- ENVP (43_envelope.md R165): the bytes are kept as given, marker included. -/
def execEnvp (s : State) : Result :=
  let o := uLrec s.straps s.src.length (lastByte s.src)
  if o.malf then .next (raiseStatus .malformedEnvelope none none s)
  else if overCapacity s.straps o.length then .next (raiseStatus .capacity none none s)
  else .next (returnOk { Response.empty with dst := some (fillBuffer s.src), olen := some o.length, flag := some o.strip } s)

/-- ENVR (43_envelope.md R166): the marker byte is cut off before UNPACK; a pair outside the envelope invariant is the
fault of 60_exceptions.md R206. -/
def execEnvr (s : State) : Result :=
  if overCapacity s.straps s.len then .next (raiseStatus .capacity none none s)
  else if s.src.length = need s.len then .next (returnText (unpack s.src s.len) s.len s)
  else if s.src.length = need s.len + 1 ∧ s.len % 4 = 0 ∧ memRead s.src (s.src.length - 1) = some s.straps.marker then
    .next (returnText (unpack (s.src.take (s.src.length - 1)) s.len) s.len s)
  else .fault .uncheckedContract

/-- MDET (43_envelope.md R161). -/
def execMdet (last : Byte) (s : State) : Result :=
  .next (returnOk { Response.empty with flag := some (uMdet s.len last) } s)

/-- LREC (43_envelope.md R163): `LEN` is the byte count. -/
def execLrec (last : Byte) (s : State) : Result :=
  let o := uLrec s.straps s.len last
  if o.malf then .next (raiseStatus .malformedEnvelope none none s)
  else if overCapacity s.straps o.length then .next (raiseStatus .capacity none none s)
  else .next (returnOk { Response.empty with olen := some o.length, flag := some o.strip } s)

end Sys2Proof.Machine
end

