-- ==== Sys2Proof/Machine/Dispatch.lean ====
section
/-! DEFINITION. One arm per command (30_encoding.md R61). -/

namespace Sys2Proof.Machine

def exec (i : Instr) (s : State) : Host.Outcome State Fault Refusal :=
  match i with
  | .enc => Sys2Proof.Machine.execEnc s
  | .encu => Sys2Proof.Machine.execEncu s
  | .dec => Sys2Proof.Machine.execDec s
  | .decu => Sys2Proof.Machine.execDecu s
  | .decs => Sys2Proof.Machine.execDecs s
  | .envb => Sys2Proof.Machine.execEnvb s
  | .envp => Sys2Proof.Machine.execEnvp s
  | .envr => Sys2Proof.Machine.execEnvr s
  | .genc km1 vin => Sys2Proof.Machine.execGenc km1 vin s
  | .gdec km1 yin => Sys2Proof.Machine.execGdec km1 yin s
  | .mdet last => Sys2Proof.Machine.execMdet last s
  | .lrec last => Sys2Proof.Machine.execLrec last s

end Sys2Proof.Machine
end

