-- ==== Sys2Proof/Machine/Moves.lean ====
section
/-! DEFINITION. The two kinds of move: the block runs the command on its port, or the host does its next act; and which
of the two agents moves (00_scope.md R6, R7; log 5). -/

namespace Sys2Proof.Machine

/-- The block's move: the command on the port runs in one atomic step (00_scope.md R7). A reserved `OP` raises
ILLEGAL_OP before anything else and reads no operand (30_encoding.md R62, 60_exceptions.md R207, R209). With no command
issued the block reads nothing and stays as it is (10_state.md R29; log 4). -/
def blockMove (s : State) : Result :=
  match s.cw with
  | none => .next s
  | some w =>
    match decode w with
    | .ok i => exec i s
    | .error (.reservedOp _) => .next (raiseStatus .illegalOp none none s)

/-- The host presents a command on the command port (10_state.md R22); a `LEN` that does not fit its port cannot be
presented (log 10). -/
def hostIssue (c : Command) (s : State) : Result :=
  if c.wf s.straps then .next { s with cw := some c.cw, len := c.len, src := c.src }
  else .refused .lenNotRepresentable

/-- The host reads a response port (10_state.md R23). A read changes nothing. -/
def hostRead (p : Port) (s : State) : Result :=
  match readPort s.resp p with
  | .ok _ => .next s
  | .error f => .fault f

/-- The host keeps the envelope `(DST, OLEN)` of a response of ENVB or ENVP, the only responses that carry `DST`, `OLEN`
and `FLAG` together (10_state.md R25, R27, R28; log 16). -/
def hostKeepEnvelope (s : State) : Result :=
  match s.resp.dst, s.resp.olen, s.resp.flag with
  | none, _, _ => .fault (.portHasNoValue .dst)
  | some _, none, _ => .fault (.portHasNoValue .olen)
  | some _, some _, none => .fault (.portHasNoValue .flag)
  | some b, some n, some _ => .next { s with envelopes := s.envelopes ++ [{ envBytes := b, envLen := n }] }

/-- The host changes the source buffer: refused while a command is in progress (70_reset_and_hazards.md R232). -/
def hostChangeSrc (b : List Byte) (s : State) : Result :=
  match s.cw with
  | some _ => .refused .srcChangedWhileRunning
  | none => .next { s with src := b }

/-- Reset: a command in progress delivers no response, the response ports carry no value, and nothing else changes
(70_reset_and_hazards.md R230, 10_state.md R29). -/
def hostReset (s : State) : State := { s with cw := none, resp := Response.empty }

/-- The host's act `a` on the state `s`. -/
def hostMove (a : HostAct) (s : State) : Result :=
  match a with
  | .issue c => hostIssue c s
  | .readPort p => hostRead p s
  | .keepEnvelope => hostKeepEnvelope s
  | .changeSrc b => hostChangeSrc b s
  | .assertReset => .next (hostReset s)

/-- The acts that wait for the response of the command in progress (20_memory.md R50). -/
def HostAct.waits : HostAct → Bool
  | .issue _ => true
  | .readPort _ => true
  | .keepEnvelope => true
  | .changeSrc _ => false
  | .assertReset => false

/-- The host's next act, if it is the host that moves: its acts are done in order, and one that waits is done when no
command is in progress. -/
def nextHostAct (s : State) : Option HostAct :=
  match s.host with
  | [] => none
  | a :: _ => if a.waits && s.cw.isSome then none else some a

/-- One move of the system. -/
def systemMove (s : State) : Result :=
  match nextHostAct s with
  | some a => hostMove a { s with host := s.host.tail }
  | none => blockMove s

/-- The command word `tableWord nbits w` on the command port, with `LEN` and `SRC` as they are driven, and the block's
move next (log 6). -/
def presentWord (s : State) (nbits w : Nat) : State := { s with cw := some (tableWord nbits w), host := [] }

end Sys2Proof.Machine
end

