-- ==== Sys2Proof/Machine/Step.lean ====
section
/-! DEFINITION. One step of the machine, and the host's way to place an instruction. -/

namespace Sys2Proof.Machine

/-- One step: the host's next act, or the block's command as one atomic step (00_scope.md R7). -/
def step (s : State) : Host.Outcome State Fault Refusal := systemMove s

/-- `s` with the command word on the command port, so that the very next step runs it: SIXBIT-CORE fetches nothing
(10_state.md R21), a command is presented whole (20_memory.md R52; log 6). -/
def State.withFetchWord (s : State) (nbits w : Nat) : State := presentWord s nbits w

end Sys2Proof.Machine
end

