-- ==== Sys2Proof/Machine/Instances.lean ====
section
/-! DEFINITION. Several instances of SIXBIT-CORE, which share nothing (60_exceptions.md R214): a list of states, and a
schedule that says which instance moves next. -/

namespace Sys2Proof.Machine

/-- The outcome of moves of several instances. -/
abbrev InstancesResult := Host.Outcome (List State) Fault Refusal

/-- Instance `k` takes one step (60_exceptions.md R214); a number that is no instance's changes nothing. -/
def stepInstance (k : Nat) (sys : List State) : InstancesResult :=
  match sys[k]? with
  | none => .next sys
  | some s =>
    match step s with
    | .next s' => .next (sys.set k s')
    | .fault f => .fault f
    | .refused r => .refused r

/-- The instances move in the order of the schedule, up to the first stop. -/
def runSchedule : List Nat → List State → InstancesResult
  | [], sys => .next sys
  | k :: ks, sys =>
    match stepInstance k sys with
    | .next sys' => runSchedule ks sys'
    | .fault f => .fault f
    | .refused r => .refused r

end Sys2Proof.Machine
end

