-- ==== Sys2Proof/Safety.lean ====
section
/-! DEFINITION. What counts as a safe run: the callers' contracts (60_exceptions.md R206, 70_reset_and_hazards.md R233),
the character count CAPACITY is about (R208), and the invariant every step keeps. -/

namespace Sys2Proof.Machine

/-- The character count a command is held to by `MAX_LEN`; GENC, GDEC and MDET have none (60_exceptions.md R208). -/
def charCount (i : Instr) (s : State) : Option Nat :=
  match i with
  | .enc => some s.src.length
  | .encu => some s.src.length
  | .dec => some s.len
  | .decu => some s.len
  | .decs => some s.len
  | .envb => some s.src.length
  | .envp => some (uLrec s.straps s.src.length (lastByte s.src)).length
  | .envr => some s.len
  | .genc _ _ => none
  | .gdec _ _ => none
  | .mdet _ => none
  | .lrec last => some (uLrec s.straps s.len last).length

/-- The caller's duty of 70_reset_and_hazards.md R233: what the host owes before it issues ENCU, DECU or ENVR. -/
def contractHeld (i : Instr) (s : State) : Bool :=
  match i with
  | .enc => true
  | .encu => (firstInvalid s.src).isNone
  | .dec => true
  | .decu => decide (s.len = 0) || decide (s.src.length = need s.len)
  | .decs => true
  | .envb => true
  | .envp => true
  | .envr => envelopeOk s.straps { envBytes := s.src, envLen := s.len }
  | .genc _ _ => true
  | .gdec _ _ => true
  | .mdet _ => true
  | .lrec _ => true

/-- A run of `k` steps is safe when it stops at no fault: no `UNCHECKED_CONTRACT` and no read of a port without a value
(60_exceptions.md R206: a claim takes "no `UNCHECKED_CONTRACT`" as a premise). -/
def SafeRun (k : Nat) (s : State) : Prop :=
  match k with
  | 0 => True
  | k + 1 =>
    match step s with
    | .next s' => SafeRun k s'
    | .fault _ => False
    | .refused _ => True

/-- What a response of an OK command looks like: no error information, a character count within `MAX_LEN`, `M` in 1..3,
and, where it carries an envelope, one that meets 10_state.md R27. -/
def okPorts (st : Straps) (r : Response) : Prop :=
  r.idx = none ∧ r.code = none ∧
  (∀ n, r.olen = some n → overCapacity st n = false) ∧
  (∀ k, r.m = some k → k ≠ 0) ∧
  (∀ b n f, r.dst = some b → r.olen = some n → r.flag = some f → envelopeOk st { envBytes := b, envLen := n } = true)

/-- What the response ports can carry: nothing at all (10_state.md R29), an OK response, INVALID_CHARACTER with an index
and an invalid code, or one of the three statuses that come alone (60_exceptions.md R201 to R208). -/
def responseOk (st : Straps) (r : Response) : Prop :=
  r = Response.empty ∨
  (r.status = some Status.ok.toCode ∧ okPorts st r) ∨
  (∃ i x, r = { Response.empty with status := some Status.invalidCharacter.toCode, idx := some i, code := some x } ∧
    overCapacity st i = false ∧ (uCin x).ok = false) ∨
  (∃ c, (c = Status.invalidBytesLength ∨ c = Status.illegalOp ∨ c = Status.capacity) ∧
    r = { Response.empty with status := some c.toCode })

/-- The invariant of the machine: the configuration meets its constraints, the `LEN` port holds a length it can carry,
the response ports carry a response the block can give, and every envelope the host holds meets 10_state.md R27. -/
def State.Inv (s : State) : Prop :=
  s.straps.wf = true ∧
  s.straps.lenFits s.len = true ∧
  responseOk s.straps s.resp ∧
  (∀ e ∈ s.envelopes, envelopeOk s.straps e = true ∧ overCapacity s.straps e.envLen = false)

end Sys2Proof.Machine
end

