-- ==== Sys2Proof/Laws/State.lean ====
section
/-! SUPPORT. One lemma per field for each update of the state: delivering a response, raising a status, reset. -/

namespace Sys2Proof.Machine

variable (r : Response) (c : Status) (i : Option Nat) (x : Option Byte) (s : State) (nb w : Nat)

@[simp] theorem respond_straps : (respond r s).straps = s.straps := rfl
@[simp] theorem respond_cw : (respond r s).cw = none := rfl
@[simp] theorem respond_len : (respond r s).len = s.len := rfl
@[simp] theorem respond_src : (respond r s).src = s.src := rfl
@[simp] theorem respond_resp : (respond r s).resp = r := rfl
@[simp] theorem respond_envelopes : (respond r s).envelopes = s.envelopes := rfl
@[simp] theorem respond_host : (respond r s).host = s.host := rfl

theorem returnOk_eq_respond : returnOk r s = respond { r with status := some 0 } s := rfl

theorem raiseStatus_eq_respond :
    raiseStatus c i x s = respond { Response.empty with status := some c.toCode, idx := i, code := x } s := rfl

@[simp] theorem hostReset_straps : (hostReset s).straps = s.straps := rfl
@[simp] theorem hostReset_cw : (hostReset s).cw = none := rfl
@[simp] theorem hostReset_len : (hostReset s).len = s.len := rfl
@[simp] theorem hostReset_src : (hostReset s).src = s.src := rfl
@[simp] theorem hostReset_resp : (hostReset s).resp = Response.empty := rfl
@[simp] theorem hostReset_envelopes : (hostReset s).envelopes = s.envelopes := rfl
@[simp] theorem hostReset_host : (hostReset s).host = s.host := rfl

@[simp] theorem withFetchWord_straps : (s.withFetchWord nb w).straps = s.straps := rfl
@[simp] theorem withFetchWord_cw : (s.withFetchWord nb w).cw = some (tableWord nb w) := rfl
@[simp] theorem withFetchWord_len : (s.withFetchWord nb w).len = s.len := rfl
@[simp] theorem withFetchWord_src : (s.withFetchWord nb w).src = s.src := rfl
@[simp] theorem withFetchWord_resp : (s.withFetchWord nb w).resp = s.resp := rfl
@[simp] theorem withFetchWord_envelopes : (s.withFetchWord nb w).envelopes = s.envelopes := rfl
@[simp] theorem withFetchWord_host : (s.withFetchWord nb w).host = [] := rfl

end Sys2Proof.Machine
end

