-- ==== Sys2Proof/Laws/Buffers.lean ====
section
/-! SUPPORT. What the buffer operations do: reads, writes, and the fill of a new destination buffer (20_memory.md R41,
R42). -/

namespace Sys2Proof.Machine

theorem memRead_eq_some_iff (b : List Byte) (i : Nat) (v : Byte) :
    memRead b i = some v ↔ ∃ h : i < b.length, b[i] = v :=
  List.getElem?_eq_some_iff

theorem memRead_eq_none_iff (b : List Byte) (i : Nat) : memRead b i = none ↔ b.length ≤ i :=
  List.getElem?_eq_none_iff

@[simp] theorem length_memWrite (b : List Byte) (i : Nat) (v : Byte) : (memWrite b i v).length = b.length :=
  List.length_set

theorem memRead_memWrite_same (b : List Byte) (i : Nat) (v : Byte) (h : i < b.length) :
    memRead (memWrite b i v) i = some v := by
  simp [memRead, memWrite, h]

theorem memRead_memWrite_other (b : List Byte) (i j : Nat) (v : Byte) (h : j ≠ i) :
    memRead (memWrite b i v) j = memRead b j := by
  simp [memRead, memWrite, List.getElem?_set_ne (Ne.symm h)]

/-- After the writes of the indices below `k`, the buffer holds `p` there and what it held before from `k` on. -/
theorem foldl_memWrite (p d : List Byte) (hd : d.length = p.length) (k : Nat) (hk : k ≤ p.length) :
    (List.range k).foldl (fillByte p) d = p.take k ++ d.drop k := by
  induction k with
  | zero => simp
  | succ k ih =>
    have hlt : k < p.length := hk
    rw [List.range_succ, List.foldl_append, ih (by omega)]
    have hread : memRead p k = some p[k] := List.getElem?_eq_getElem hlt
    simp only [List.foldl_cons, List.foldl_nil, fillByte, hread, memWrite]
    have hkd : k < d.length := by omega
    have htake : (p.take k).length = k := by simp; omega
    rw [List.set_append_right _ _ (by omega), htake, Nat.sub_self, List.drop_eq_getElem_cons hkd, List.set_cons_zero,
      ← List.take_append_getElem hlt, List.append_assoc]
    rfl

/-- The new destination buffer holds exactly the bytes written to it (20_memory.md R42). -/
@[simp] theorem fillBuffer_eq (p : List Byte) : fillBuffer p = p := by
  unfold fillBuffer
  rw [foldl_memWrite p _ (by simp) _ (Nat.le_refl _)]
  simp

theorem lastByte_append (b : List Byte) (y : Byte) : lastByte (b ++ [y]) = y := by
  simp [lastByte, memRead]

theorem lastByte_eq_getLastD (b : List Byte) : lastByte b = b.getLastD 0 := by
  rcases List.eq_nil_or_concat b with rfl | ⟨l, y, rfl⟩
  · rfl
  · simp [lastByte_append]

end Sys2Proof.Machine
end

