-- ==== Sys2Proof/Laws/Units.lean ====
section
/-! SUPPORT. The units and sequencers: firstInvalid as a search, and PACK and UNPACK one group at a time. -/

namespace Sys2Proof.Machine

theorem uCin_ok_iff (x : Byte) : (uCin x).ok = true ↔ 32 ≤ x.toNat ∧ x.toNat ≤ 95 := by
  simp [uCin]

theorem firstInvalid_eq_none_iff (s : List Byte) :
    firstInvalid s = none ↔ ∀ x ∈ s, (uCin x).ok = true := by
  simp [firstInvalid, List.findIdx?_eq_none_iff]

theorem firstInvalid_eq_some_iff (s : List Byte) (i : Nat) :
    firstInvalid s = some i ↔
      ∃ x, memRead s i = some x ∧ (uCin x).ok = false ∧
        ∀ j y, j < i → memRead s j = some y → (uCin y).ok = true := by
  unfold firstInvalid memRead
  rw [List.findIdx?_eq_some_iff_getElem]
  constructor
  · rintro ⟨h, hx, hj⟩
    refine ⟨s[i], List.getElem?_eq_getElem h, by simpa using hx, fun j y hji hy => ?_⟩
    obtain ⟨hl, rfl⟩ := List.getElem?_eq_some_iff.1 hy
    simpa using hj j hji
  · rintro ⟨x, hx, hbad, hj⟩
    obtain ⟨hl, rfl⟩ := List.getElem?_eq_some_iff.1 hx
    refine ⟨hl, by simpa using hbad, fun j hji => ?_⟩
    simpa using hj j _ hji (List.getElem?_eq_getElem (Nat.lt_trans hji hl))

theorem groupCount_add_four (n : Nat) : groupCount (n + 4) = groupCount n + 1 := by
  unfold groupCount; omega

theorem need_add_four (n : Nat) : need (n + 4) = need n + 3 := by
  unfold need; omega

theorem packGroup_succ (x0 x1 x2 x3 : Byte) (s : List Byte) (g : Nat) :
    packGroup (x0 :: x1 :: x2 :: x3 :: s) (g + 1) = packGroup s g := by
  have hl : ∀ k l, packLane (x0 :: x1 :: x2 :: x3 :: s) (g + 1) k l = packLane s g k l := by
    intro k l
    have : 4 * (g + 1) + l = (4 * g + l) + 4 := by omega
    simp [packLane, memRead, this]
  have hk : (x0 :: x1 :: x2 :: x3 :: s).length - 4 * (g + 1) = s.length - 4 * g := by
    simp only [List.length_cons]; omega
  simp only [packGroup, hl, hk]

/-- PACK, one full group at a time. -/
theorem pack_cons_four (x0 x1 x2 x3 : Byte) (s : List Byte) :
    pack (x0 :: x1 :: x2 :: x3 :: s) = packGroup (x0 :: x1 :: x2 :: x3 :: s) 0 ++ pack s := by
  have hn : (x0 :: x1 :: x2 :: x3 :: s).length = s.length + 4 := rfl
  simp only [pack, hn, groupCount_add_four, List.range_succ_eq_map, List.flatMap_cons, List.flatMap_map]
  congr 1
  exact List.flatMap_congr fun g _ => packGroup_succ x0 x1 x2 x3 s g

theorem unpackGroup_succ (y0 y1 y2 : Byte) (s : List Byte) (n g : Nat) :
    unpackGroup (y0 :: y1 :: y2 :: s) (n + 4) (g + 1) = unpackGroup s n g := by
  have hb : ∀ m j, unpackByte (y0 :: y1 :: y2 :: s) (g + 1) m j = unpackByte s g m j := by
    intro m j
    have : 3 * (g + 1) + j = (3 * g + j) + 3 := by omega
    simp [unpackByte, memRead, this]
  have hk : n + 4 - 4 * (g + 1) = n - 4 * g := by omega
  simp only [unpackGroup, hb, hk]

/-- UNPACK, one full group at a time. -/
theorem unpackLanes_cons_three (y0 y1 y2 : Byte) (s : List Byte) (n : Nat) :
    unpackLanes (y0 :: y1 :: y2 :: s) (n + 4) =
      unpackGroup (y0 :: y1 :: y2 :: s) (n + 4) 0 ++ unpackLanes s n := by
  simp only [unpackLanes, groupCount_add_four, List.range_succ_eq_map, List.flatMap_cons, List.flatMap_map]
  congr 1
  exact List.flatMap_congr fun g _ => unpackGroup_succ y0 y1 y2 s n g

theorem unpack_cons_three (y0 y1 y2 : Byte) (s : List Byte) (n : Nat) :
    unpack (y0 :: y1 :: y2 :: s) (n + 4) =
      (unpackGroup (y0 :: y1 :: y2 :: s) (n + 4) 0).map uCout ++ unpack s n := by
  simp [unpack, unpackLanes_cons_three]

/-- U_LREC never reports a malformed count (60_exceptions.md R205). -/
@[simp] theorem uLrec_malf (st : Straps) (nb : Nat) (last : Byte) : (uLrec st nb last).malf = false := by
  unfold uLrec
  dsimp only
  split_ifs <;> rfl

/-- The test of DECS never succeeds (60_exceptions.md R204). -/
theorem no_lane_exceeds_63 (l : List Sixbit) : (l.any fun v => decide (63 < v.toNat)) = false := by
  simp only [List.any_eq_false, decide_eq_true_eq]
  intro v _
  have := v.isLt
  omega

end Sys2Proof.Machine
end

