-- ==== Sys2Proof/Laws/Exec.lean ====
section
/-! SUPPORT. What a command and a move can do, once for all: the inversion lemmas later proofs cite. -/

namespace Sys2Proof.Machine

/-- Every command that answers delivers a response and does nothing else. -/
theorem exec_next_is_respond {i : Instr} {s t : State} (h : exec i s = .next t) : ∃ r, t = respond r s := by
  cases i <;>
    simp only [exec, execEnc, execEncu, execDec, execDecu, execDecs, execEnvb, execEnvp, execEnvr, execGenc, execGdec,
      execMdet, execLrec] at h <;>
    (repeat' split at h) <;>
    first
      | (obtain rfl := Host.Outcome.next.inj h; exact ⟨_, rfl⟩)
      | cases h

/-- No command is refused. -/
theorem exec_ne_refused (i : Instr) (s : State) (r : Refusal) : exec i s ≠ .refused r := by
  intro h
  cases i <;>
    simp only [exec, execEnc, execEncu, execDec, execDecu, execDecs, execEnvb, execEnvp, execEnvr, execGenc, execGdec,
      execMdet, execLrec] at h <;>
    (repeat' split at h) <;>
    cases h

/-- The block's move: it stays idle, raises ILLEGAL_OP, or runs the decoded command. -/
theorem blockMove_cases (s : State) :
    (s.cw = none ∧ blockMove s = .next s) ∨
    (∃ w e, s.cw = some w ∧ decode w = .error e ∧ blockMove s = .next (raiseStatus .illegalOp none none s)) ∨
    (∃ w i, s.cw = some w ∧ decode w = .ok i ∧ blockMove s = exec i s) := by
  unfold blockMove
  cases hcw : s.cw with
  | none => exact .inl ⟨rfl, rfl⟩
  | some w =>
    cases hd : decode w with
    | ok i => exact .inr (.inr ⟨w, i, rfl, hd, by simp [hd]⟩)
    | error e => cases e with
      | reservedOp op => exact .inr (.inl ⟨w, _, rfl, hd, by simp [hd]⟩)

/-- A step is the host's next act or the block's move. -/
theorem step_cases (s : State) :
    (∃ a rest, s.host = a :: rest ∧ (a.waits && s.cw.isSome) = false ∧ step s = hostMove a { s with host := rest }) ∨
    ((s.host = [] ∨ ∃ a rest, s.host = a :: rest ∧ a.waits = true ∧ s.cw.isSome = true) ∧ step s = blockMove s) := by
  unfold step systemMove nextHostAct
  cases hh : s.host with
  | nil => exact .inr ⟨.inl rfl, rfl⟩
  | cons a rest =>
    by_cases hw : (a.waits && s.cw.isSome) = true
    · refine .inr ⟨.inr ⟨a, rest, rfl, ?_⟩, by simp [hw]⟩
      simpa using hw
    · have hf : (a.waits && s.cw.isSome) = false := by simpa using hw
      exact .inl ⟨a, rest, rfl, hf, by simp [hf]⟩

/-- The host's acts that go on, with all they change. -/
theorem hostMove_cases {a : HostAct} {s t : State} (h : hostMove a s = .next t) :
    (∃ c, a = .issue c ∧ c.wf s.straps = true ∧ t = { s with cw := some c.cw, len := c.len, src := c.src }) ∨
    (∃ p, a = .readPort p ∧ t = s) ∨
    (∃ b n f, a = .keepEnvelope ∧ s.resp.dst = some b ∧ s.resp.olen = some n ∧ s.resp.flag = some f ∧
      t = { s with envelopes := s.envelopes ++ [{ envBytes := b, envLen := n }] }) ∨
    (∃ b, a = .changeSrc b ∧ s.cw = none ∧ t = { s with src := b }) ∨
    (a = .assertReset ∧ t = hostReset s) := by
  cases a with
  | issue c =>
    simp only [hostMove, hostIssue] at h
    split at h
    · rename_i hw
      cases h
      exact .inl ⟨c, rfl, hw, rfl⟩
    · cases h
  | readPort p =>
    simp only [hostMove, hostRead] at h
    split at h
    · cases h
      exact .inr (.inl ⟨p, rfl, rfl⟩)
    · cases h
  | keepEnvelope =>
    simp only [hostMove, hostKeepEnvelope] at h
    split at h <;> cases h
    rename_i b n f hb hn hf
    exact .inr (.inr (.inl ⟨b, n, f, rfl, hb, hn, hf, rfl⟩))
  | changeSrc b =>
    simp only [hostMove, hostChangeSrc] at h
    split at h
    · cases h
    · rename_i hc
      cases h
      exact .inr (.inr (.inr (.inl ⟨b, rfl, hc, rfl⟩)))
  | assertReset =>
    cases h
    exact .inr (.inr (.inr (.inr ⟨rfl, rfl⟩)))

end Sys2Proof.Machine
end

