-- ==== Sys2Proof/Laws/PerInstr.lean ====
section
/-! SUPPORT. Statements made once per instruction. -/

namespace Sys2Proof.Laws.OpcodeField

/-- The encoded word's `OP` field is the command's row of the opcode map, and no unused bit is set (30_encoding.md R60,
R61). -/
def Statement (i : Instr) : Prop := opField (encode i) = i.op ∧ encode i &&& ~~~ i.usedBits = 0

theorem enc : Statement .enc := by unfold Statement; decide
theorem encu : Statement .encu := by unfold Statement; decide
theorem dec : Statement .dec := by unfold Statement; decide
theorem decu : Statement .decu := by unfold Statement; decide
theorem decs : Statement .decs := by unfold Statement; decide
theorem envb : Statement .envb := by unfold Statement; decide
theorem envp : Statement .envp := by unfold Statement; decide
theorem envr : Statement .envr := by unfold Statement; decide

/-- The `OP` field of a word that ends in four bits `op`. -/
theorem opField_append (x : BitVec 28) (op : BitVec 4) : opField (x ++ op) = op := by
  apply BitVec.eq_of_getLsbD_eq
  intro i hi
  have h : (opField (x ++ op)).getLsbD i = (x ++ op).getLsbD i := by
    simp [opField, hi]
  rw [h, BitVec.getLsbD_append, if_pos hi]

theorem genc (km1 : BitVec 2) (vin : Group) : Statement (.genc km1 vin) := by
  refine ⟨opField_append _ _, ?_⟩
  apply BitVec.eq_of_getLsbD_eq
  intro i hi
  simp only [encode, Instr.usedBits, Instr.op, BitVec.getLsbD_and, BitVec.getLsbD_append]
  interval_cases i <;> simp

theorem gdec (km1 : BitVec 2) (yin : Group) : Statement (.gdec km1 yin) := by
  refine ⟨opField_append _ _, ?_⟩
  apply BitVec.eq_of_getLsbD_eq
  intro i hi
  simp only [encode, Instr.usedBits, Instr.op, BitVec.getLsbD_and, BitVec.getLsbD_append]
  interval_cases i <;> simp

theorem mdet (last : Byte) : Statement (.mdet last) := by
  refine ⟨opField_append _ _, ?_⟩
  apply BitVec.eq_of_getLsbD_eq
  intro i hi
  simp only [encode, Instr.usedBits, Instr.op, BitVec.getLsbD_and, BitVec.getLsbD_append]
  interval_cases i <;> simp

theorem lrec (last : Byte) : Statement (.lrec last) := by
  refine ⟨opField_append _ _, ?_⟩
  apply BitVec.eq_of_getLsbD_eq
  intro i hi
  simp only [encode, Instr.usedBits, Instr.op, BitVec.getLsbD_and, BitVec.getLsbD_append]
  interval_cases i <;> simp

end Sys2Proof.Laws.OpcodeField
end

