-- ==== Sys2Proof/Laws/Run.lean ====
section
/-! SUPPORT. Runs of the machine, one step at a time. -/

namespace Sys2Proof.Machine

theorem run_zero (s : State) : core.run 0 s = .next s := rfl

theorem run_succ_of_next {k : Nat} {s s' : State} (h : step s = .next s') : core.run (k + 1) s = core.run k s' := by
  have hc : core.step s = .next s' := h
  simp only [Host.Core.run, hc]

theorem run_succ_of_fault {k : Nat} {s : State} {f : Fault} (h : step s = .fault f) :
    core.run (k + 1) s = .fault f := by
  have hc : core.step s = .fault f := h
  simp only [Host.Core.run, hc]

theorem run_succ_of_refused {k : Nat} {s : State} {r : Refusal} (h : step s = .refused r) :
    core.run (k + 1) s = .refused r := by
  have hc : core.step s = .refused r := h
  simp only [Host.Core.run, hc]

theorem run_one (s : State) : core.run 1 s = step s := by
  cases h : step s with
  | next s' => exact run_succ_of_next h
  | fault f => exact run_succ_of_fault h
  | refused r => exact run_succ_of_refused h

/-- One step of one of several instances. -/
theorem stepInstance_cases {k : Nat} {sys sys' : List State} (h : stepInstance k sys = .next sys') :
    (sys[k]? = none ∧ sys' = sys) ∨
    (∃ s s', sys[k]? = some s ∧ step s = .next s' ∧ sys' = sys.set k s') := by
  unfold stepInstance at h
  split at h
  · rename_i hn
    cases h
    exact .inl ⟨hn, rfl⟩
  · rename_i s hs
    split at h
    · rename_i s' hs'
      cases h
      exact .inr ⟨s, s', hs, hs', rfl⟩
    · cases h
    · cases h

end Sys2Proof.Machine
end

