-- ==== Sys2Proof/Certificates/Slice0/Obligations.lean ====
section
/-! DEFINITION. The statements for the provers, from the numbered rules of spec/. -/

namespace Sys2Proof.Machine

/-! ## The vocabulary of the statements: the rules' own words, independent of the meanings -/

/-- A valid SIXBIT character: a code in 32..95 (30_encoding.md R68). -/
abbrev validChar (x : Byte) : Prop := 32 ≤ x.toNat ∧ x.toNat ≤ 95

/-- A text of valid characters: `firstInvalid(s) = NONE` (41_encode.md R101). -/
abbrev validText (s : List Byte) : Prop := ∀ x ∈ s, validChar x

/-- `MAX_LEN = INF` or `n <= MAX_LEN` (00_scope.md R8). -/
def withinMax (st : Straps) (n : Nat) : Bool :=
  match st.maxLen with
  | none => true
  | some m => decide (n ≤ m)

/-- The state after the command on the port was answered with the response `r`, and nothing else happened. -/
def answered (s : State) (r : Response) : State := { s with cw := none, resp := r }

/-- An error response: `STATUS` and no other port (60_exceptions.md R201). -/
def errorResponse (c : BitVec 4) : Response := { Response.empty with status := some c }

/-- INVALID_CHARACTER at index `i` with the code `x` (60_exceptions.md R202). -/
def invalidCharacterResponse (i : Nat) (x : Byte) : Response :=
  { Response.empty with status := some 1, idx := some i, code := some x }

/-- OK with `DST` and `OLEN` and no other port. -/
def bufferResponse (b : List Byte) (n : Nat) : Response :=
  { Response.empty with status := some 0, dst := some b, olen := some n }

/-- OK with `DST`, `OLEN` and `FLAG` and no other port. -/
def envelopeResponse (b : List Byte) (n : Nat) (f : Bool) : Response :=
  { Response.empty with status := some 0, dst := some b, olen := some n, flag := some f }

/-- Bit `t` of the 6-bit values of a text, most significant bit of the first value first; 0 beyond the text. -/
def laneBit (s : List Byte) (t : Nat) : Bool :=
  match s[t / 6]? with
  | some x => (x.toNat - 32).testBit (5 - t % 6)
  | none => false

/-- Bit `t` of a byte sequence, most significant bit of the first byte first; 0 beyond the sequence. -/
def byteBit (b : List Byte) (t : Nat) : Bool :=
  match b[t / 8]? with
  | some y => y.toNat.testBit (7 - t % 8)
  | none => false

/-- `b` is the packed buffer of the text `s`: `ceil(n*6/8)` bytes whose bits, in order, are the bits of the text's 6-bit
values followed by zero padding (20_memory.md R43, R44; 30_encoding.md R70 to R72). -/
def IsPacked (s b : List Byte) : Prop :=
  b.length = (6 * s.length + 7) / 8 ∧ ∀ t, t < 8 * b.length → byteBit b t = laneBit s t

/-- `t` is the `n`-character text of the packed bytes `b`: character `i` is 32 plus the 6-bit value in bits `6i .. 6i+5`
of `b` (42_decode.md R130, R131, R136). -/
def IsUnpacked (b : List Byte) (n : Nat) (t : List Byte) : Prop :=
  t.length = n ∧ validText t ∧ ∀ k, k < 6 * n → laneBit t k = byteBit b k

/-- The length and strip bit U_LREC recovers from a byte count and a last byte (43_envelope.md R162). -/
def Recovers (st : Straps) (nb : Nat) (last : Byte) (n : Nat) (strip : Bool) : Prop :=
  ∃ q,
    (nb = 3 * q ∧ (st.rem0Rule = .count ∨ q = 0 ∨ last.toNat % 64 ≠ 0) ∧ n = 4 * q ∧ strip = false) ∨
    (nb = 3 * q ∧ st.rem0Rule = .trailingZeroShorter ∧ 0 < q ∧ last.toNat % 64 = 0 ∧ n = 4 * q - 1 ∧ strip = false) ∨
    (nb = 3 * q + 1 ∧ last = st.marker ∧ n = 4 * q ∧ strip = true) ∨
    (nb = 3 * q + 1 ∧ last ≠ st.marker ∧ n = 4 * q + 1 ∧ strip = false) ∨
    (nb = 3 * q + 2 ∧ n = 4 * q + 2 ∧ strip = false)

/-- The lanes (or bits) of a 24-bit group that a group size keeps: the leading `6k` bits. -/
def groupMask (km1 : BitVec 2) : Group :=
  match km1.toNat with
  | 0 => 0xFC0000
  | 1 => 0xFFF000
  | 2 => 0xFFFFC0
  | _ => 0xFFFFFF

/-- Does the command list `LEN` among the operands it reads (30_encoding.md R61)? -/
def readsLen (i : Instr) : Bool :=
  match i with
  | .enc => false
  | .encu => false
  | .dec => true
  | .decu => true
  | .decs => true
  | .envb => false
  | .envp => false
  | .envr => true
  | .genc _ _ => false
  | .gdec _ _ => false
  | .mdet _ => true
  | .lrec _ => true

/-- Does the command list `SRC` among the operands it reads (30_encoding.md R61)? -/
def readsSrc (i : Instr) : Bool :=
  match i with
  | .enc => true
  | .encu => true
  | .dec => true
  | .decu => true
  | .decs => true
  | .envb => true
  | .envp => true
  | .envr => true
  | .genc _ _ => false
  | .gdec _ _ => false
  | .mdet _ => false
  | .lrec _ => false

/-- The ports a response of this command carries when its status is OK, `STATUS` aside (30_encoding.md R61). -/
def portsOnOk (i : Instr) : List Port :=
  match i with
  | .enc => [.dst, .olen]
  | .encu => [.dst, .olen]
  | .dec => [.dst, .olen]
  | .decu => [.dst, .olen]
  | .decs => [.dst, .olen]
  | .envb => [.dst, .olen, .flag]
  | .envp => [.dst, .olen, .flag]
  | .envr => [.dst, .olen]
  | .genc _ _ => [.wout, .m]
  | .gdec _ _ => [.wout]
  | .mdet _ => [.flag]
  | .lrec _ => [.olen, .flag]

end Sys2Proof.Machine

open Sys2Proof
open Sys2Proof.Machine

/-! ## Encoding -/

/-- R60, R61: no bit of an encoding is dropped. -/
def Obligations.DecodeEncodeRoundTrip : Prop :=
  ∀ i : Instr, i.wf = true → decode (encode i) = .ok i

/-- R60, R61, R75: a command word means a command exactly when its used fields are that command's; the fields a command
does not use have no effect. -/
def Obligations.DecodeReadsExactlyTheUsedFields : Prop :=
  ∀ (w : CmdWord) (i : Instr), decode w = .ok i ↔ w &&& i.usedBits = encode i

/-- R61, R62: exactly the reserved `OP` values are refused, each by its value. -/
def Obligations.ReservedOpIsRefusedByName : Prop :=
  ∀ (w : CmdWord) (e : DecodeError),
    decode w = .error e ↔ (12 ≤ (w.extractLsb' 0 4).toNat ∧ e = .reservedOp (w.extractLsb' 0 4))

/-- Words of 95_test_vectors.md decode to the commands they stand for: GENC, GDEC, LREC, MDET, ENC with reserved bits
set, and the reserved `0xFFFFFFFF`. -/
def Obligations.SpecWordsDecode : Prop :=
  decode 0x8628C028 = .ok (.genc 2 0x8628C0) ∧
  decode 0x862F0019 = .ok (.gdec 1 0x862F00) ∧
  decode 0x0000C00B = .ok (.lrec 0xC0) ∧
  decode 0xFFFF000A = .ok (.mdet 0x00) ∧
  decode 0x000000C0 = .ok .enc ∧
  decode 0x00000007 = .ok .envr ∧
  decode 0xFFFFFFFF = .error (.reservedOp 0xF)

/-! ## The step -/

/-- A step runs the decoded command: a command word on the port, and no act of the host that would come before the
response (log 5). -/
def Obligations.StepRunsTheDecodedCommand : Prop :=
  ∀ (s : State) (w : CmdWord) (i : Instr),
    s.cw = some w → (∀ a, s.host.head? = some a → a.waits = true) → decode w = .ok i → step s = exec i s

/-- R62, R207: a command with a reserved `OP` completes with ILLEGAL_OP and carries no other output, whatever the other
fields and operands hold. The premise that the host's next act, if any, waits for the response is the model's choice
(log 5). -/
def Obligations.ReservedOpAnswersIllegalOp : Prop :=
  ∀ (s : State) (w : CmdWord),
    s.cw = some w → (∀ a, s.host.head? = some a → a.waits = true) → 12 ≤ (w.extractLsb' 0 4).toNat →
    step s = .next (answered s (errorResponse 5))

/-- The block reads nothing until a command is issued (10_state.md R29); that the step stays idle is the model's reading
(log 4). -/
def Obligations.IdleBlockStays : Prop :=
  ∀ s : State, s.cw = none → s.host = [] → step s = .next s

/-! ## Reset -/

/-- R29 and the defaults of R8: what reset leaves. That a step of the idle block changes nothing is the model's reading
(log 4). That `W_LEN` is unbounded (log 1), that the `LEN` and `SRC` ports hold 0 and the empty sequence (log 2), and that
there is no act of the host (log 5) and no envelope (log 16) is the model's choice. -/
def Obligations.ResetLeavesNoPortWithAValue : Prop :=
  (∀ p, readPort State.reset.resp p = .error (.portHasNoValue p)) ∧
  State.reset.cw = none ∧
  State.reset.straps.marker = 0x03 ∧ State.reset.straps.rem0Rule = .count ∧ State.reset.straps.maxLen = none ∧
  step State.reset = .next State.reset ∧
  State.reset.straps.wLen = none ∧ State.reset.len = 0 ∧ State.reset.src = [] ∧ State.reset.envelopes = [] ∧
  State.reset.host = []

/-- R230, R29: a reset at any point, also with a command in progress: the command delivers no response, every read of a
response port faults, the parameters and the host's envelopes are unchanged. That the idle block's next move changes
nothing is the model's reading (log 4), and so is that `LEN`, `SRC` and the host's remaining acts stay (log 20); that a reset is
an act of the host's list that waits for nothing is the model's choice (log 5). -/
def Obligations.AssertedResetDropsTheCommand : Prop :=
  ∀ (s : State) (rest : List HostAct), s.host = .assertReset :: rest →
    ∃ t, step s = .next t ∧
      t.cw = none ∧ (∀ p, readPort t.resp p = .error (.portHasNoValue p)) ∧
      t.straps = s.straps ∧ t.envelopes = s.envelopes ∧ t.len = s.len ∧ t.src = s.src ∧ t.host = rest ∧
      blockMove t = .next t

/-! ## The host's acts -/

/-- R22, R60: issuing presents the command word, `LEN` and `SRC`. That nothing else changes takes in the response ports,
which keep the last response by the model's reading (log 3). That the host's acts are a list, in which issuing waits while
a command is in progress, is the model's choice (log 5), and so is that a `LEN` its port cannot carry is refused
(log 10). -/
def Obligations.IssuePresentsTheCommand : Prop :=
  ∀ (s : State) (c : Command) (rest : List HostAct), s.cw = none → s.host = .issue c :: rest →
    (c.wf s.straps = true →
      step s = .next { s with cw := some c.cw, len := c.len, src := c.src, host := rest }) ∧
    (c.wf s.straps = false → step s = .refused .lenNotRepresentable)

/-- R23: a read of a response port that carries no value faults. That a read of a port with a value changes nothing is the
model's reading (log 8); the host as a list of acts is its choice (log 5). -/
def Obligations.ReadingAPortWithoutValueFaults : Prop :=
  ∀ (s : State) (p : Port) (rest : List HostAct), s.cw = none → s.host = .readPort p :: rest →
    ((∃ v, readPort s.resp p = .ok v) → step s = .next { s with host := rest }) ∧
    ((¬ ∃ v, readPort s.resp p = .ok v) → step s = .fault (.portHasNoValue p))

/-- R232: a host that changes `SRC` while a command is in progress is refused; between commands it may. That contents equal
to the old are refused as well is the model's reading (log 9); that the act waits for nothing is its choice (log 5). -/
def Obligations.ChangingSrcWhileRunningIsRefused : Prop :=
  ∀ (s : State) (b : List Byte) (rest : List HostAct), s.host = .changeSrc b :: rest →
    (s.cw ≠ none → step s = .refused .srcChangedWhileRunning) ∧
    (s.cw = none → step s = .next { s with src := b, host := rest })

/-- R27, R28: the host keeps `(DST, OLEN)` of a response that carries `DST`, `OLEN` and `FLAG`; from any other response it
gets no envelope. That this is how the host takes an envelope is the model's choice (log 16), and so is its list of acts
(log 5). -/
def Obligations.KeepingAnEnvelopeNeedsAConstructor : Prop :=
  ∀ (s : State) (rest : List HostAct), s.cw = none → s.host = .keepEnvelope :: rest →
    (∀ b n f, s.resp.dst = some b → s.resp.olen = some n → s.resp.flag = some f →
      step s = .next { s with envelopes := s.envelopes ++ [{ envBytes := b, envLen := n }], host := rest }) ∧
    ((s.resp.dst = none ∨ s.resp.olen = none ∨ s.resp.flag = none) →
      ∃ p, (p = .dst ∨ p = .olen ∨ p = .flag) ∧ readPort s.resp p = .error (.portHasNoValue p) ∧
        step s = .fault (.portHasNoValue p))

/-! ## Formats and units -/

/-- R12: the three forms of `need(n)` are equal, and `need(4q+3) = need(4q+4) = 3q+3`. -/
def Obligations.NeedHasThreeEqualForms : Prop :=
  (∀ n, need n = (6 * n + 7) / 8 ∧ need n = (3 * n + 3) / 4 ∧ need n = 3 * (n / 4) + n % 4) ∧
  (∀ q, need (4 * q + 3) = 3 * q + 3 ∧ need (4 * q + 4) = 3 * q + 3)

/-- R68, R69, R100, R131: the character mappers are a bijection between codes 32..95 and values 0..63, and the bit forms
of R69 agree. -/
def Obligations.CharacterMapIsABijection : Prop :=
  (∀ x : Byte, (uCin x).ok = true ↔ validChar x) ∧
  (∀ x : Byte, validChar x →
    (uCin x).v.toNat = x.toNat - 32 ∧ (uCin x).v = x.extractLsb' 0 6 ^^^ 0b100000#6 ∧ uCout (uCin x).v = x) ∧
  (∀ v : Sixbit, (uCout v).toNat = v.toNat + 32 ∧ validChar (uCout v) ∧ (uCin (uCout v)).v = v ∧
    uCout v = 0b0#1 ++ v.extractLsb' 5 1 ++ (~~~ v.extractLsb' 5 1) ++ v.extractLsb' 0 5)

/-- R102: the encoder's formulas, in exact natural-number arithmetic: no intermediate value is truncated (R10). -/
def Obligations.LineEncoderIsExactArithmetic : Prop :=
  ∀ (a b c d : Sixbit) (k : Nat), 1 ≤ k → k ≤ 4 →
    ∀ b' c' d' : Nat,
      b' = (if 2 ≤ k then b.toNat else 0) → c' = (if 3 ≤ k then c.toNat else 0) → d' = (if 4 ≤ k then d.toNat else 0) →
      (uEnc a b c d k).y0.toNat = 4 * a.toNat + b' / 16 ∧
      (uEnc a b c d k).y1.toNat = 16 * (b' % 16) + c' / 4 ∧
      (uEnc a b c d k).y2.toNat = 64 * (c' % 4) + d' ∧
      (uEnc a b c d k).m = min k 3

/-- R130: the decoder's formulas in exact arithmetic, and the decoder undoes the encoder up to the lanes at index `k` and
above, which are zero. -/
def Obligations.LineDecoderInvertsLineEncoder : Prop :=
  (∀ (y0 y1 y2 : Byte) (k : Nat), 1 ≤ k → k ≤ 4 →
    (uDec y0 y1 y2 k).a.toNat = y0.toNat / 4 ∧
    (uDec y0 y1 y2 k).b.toNat = (if 2 ≤ k then 16 * (y0.toNat % 4) + y1.toNat / 16 else 0) ∧
    (uDec y0 y1 y2 k).c.toNat = (if 3 ≤ k then 4 * (y1.toNat % 16) + y2.toNat / 64 else 0) ∧
    (uDec y0 y1 y2 k).d.toNat = (if 4 ≤ k then y2.toNat % 64 else 0)) ∧
  (∀ (a b c d : Sixbit) (k : Nat), 1 ≤ k → k ≤ 4 →
    uDec (uEnc a b c d k).y0 (uEnc a b c d k).y1 (uEnc a b c d k).y2 k =
      { a := a, b := if 2 ≤ k then b else 0, c := if 3 ≤ k then c else 0, d := if 4 ≤ k then d else 0 })

/-! ## The encoder family -/

/-- R103, R109: GENC in every case: `WOUT` is `VIN` with the lanes at index `K` and above zero, `M = min(K, 3)`, and no
other port carries a value. -/
def Obligations.GencMasksTheLanes : Prop :=
  ∀ (km1 : BitVec 2) (vin : Group) (s : State),
    exec (.genc km1 vin) s = .next (answered s
      { Response.empty with
        status := some 0, wout := some (vin &&& groupMask km1), m := some (BitVec.ofNat 2 (min (km1.toNat + 1) 3)) })

/-- R104, with R106, R107, R101, R202, R208: ENC in every case. -/
def Obligations.EncAnswers : Prop :=
  ∀ s : State,
    (withinMax s.straps s.src.length = false → exec .enc s = .next (answered s (errorResponse 6))) ∧
    (∀ i x, withinMax s.straps s.src.length = true → s.src[i]? = some x → ¬ validChar x →
      (∀ j y, j < i → s.src[j]? = some y → validChar y) →
      exec .enc s = .next (answered s (invalidCharacterResponse i x))) ∧
    (withinMax s.straps s.src.length = true → validText s.src →
      ∃ b, IsPacked s.src b ∧ exec .enc s = .next (answered s (bufferResponse b s.src.length)))

/-- R105, R206: ENCU in every case: the packed buffer on a valid text, the fault on any other. -/
def Obligations.EncuAnswersOrFaults : Prop :=
  ∀ s : State,
    (withinMax s.straps s.src.length = false → exec .encu s = .next (answered s (errorResponse 6))) ∧
    (withinMax s.straps s.src.length = true → ¬ validText s.src → exec .encu s = .fault .uncheckedContract) ∧
    (withinMax s.straps s.src.length = true → validText s.src →
      ∃ b, IsPacked s.src b ∧ exec .encu s = .next (answered s (bufferResponse b s.src.length)))

/-- R108: on a valid text ENC and ENCU give identical responses, and it is one response. -/
def Obligations.EncAndEncuAgree : Prop :=
  ∀ s : State, validText s.src → withinMax s.straps s.src.length = true →
    ∃ r, exec .enc s = .next (answered s r) ∧ exec .encu s = .next (answered s r)

/-! ## The decoder family -/

/-- R132: GDEC in every case: `WOUT` is `YIN` with the bits beyond `K` lanes zero, and no other port carries a value. -/
def Obligations.GdecMasksTheGroup : Prop :=
  ∀ (km1 : BitVec 2) (yin : Group) (s : State),
    exec (.gdec km1 yin) s = .next (answered s
      { Response.empty with status := some 0, wout := some (yin &&& groupMask km1) })

/-- R133, R136, R203: DEC in every case. -/
def Obligations.DecAnswers : Prop :=
  ∀ s : State,
    (withinMax s.straps s.len = false → exec .dec s = .next (answered s (errorResponse 6))) ∧
    (withinMax s.straps s.len = true → s.src.length ≠ need s.len →
      exec .dec s = .next (answered s (errorResponse 2))) ∧
    (withinMax s.straps s.len = true → s.src.length = need s.len →
      ∃ t, IsUnpacked s.src s.len t ∧ exec .dec s = .next (answered s (bufferResponse t s.len)))

/-- R134, R206: DECU in every case. -/
def Obligations.DecuAnswersOrFaults : Prop :=
  ∀ s : State,
    (withinMax s.straps s.len = false → exec .decu s = .next (answered s (errorResponse 6))) ∧
    (s.len = 0 → exec .decu s = .next (answered s (bufferResponse [] 0))) ∧
    (withinMax s.straps s.len = true → 0 < s.len → s.src.length ≠ need s.len →
      exec .decu s = .fault .uncheckedContract) ∧
    (withinMax s.straps s.len = true → 0 < s.len → s.src.length = need s.len →
      ∃ t, IsUnpacked s.src s.len t ∧ exec .decu s = .next (answered s (bufferResponse t s.len)))

/-- R135, R204: DECS in every case; its test on the lane values never fires, and it gives the same response as DEC on
every input. -/
def Obligations.DecsAnswersAsDec : Prop :=
  ∀ s : State,
    (withinMax s.straps s.len = false → exec .decs s = .next (answered s (errorResponse 6))) ∧
    (withinMax s.straps s.len = true → s.src.length ≠ need s.len →
      exec .decs s = .next (answered s (errorResponse 2))) ∧
    (withinMax s.straps s.len = true → s.src.length = need s.len →
      ∃ t, IsUnpacked s.src s.len t ∧ exec .decs s = .next (answered s (bufferResponse t s.len))) ∧
    exec .decs s = exec .dec s

/-- R140: DEC, DECU and DECS give identical responses on well-formed input, and each of them answers. -/
def Obligations.DecodersAgree : Prop :=
  ∀ s : State, s.src.length = need s.len → withinMax s.straps s.len = true →
    ∃ r, exec .dec s = .next (answered s r) ∧ exec .decu s = .next (answered s r) ∧ exec .decs s = .next (answered s r)

/-- R137: bytes that differ only in padding bits, beyond the `6*LEN` bits of the characters, decode to the same text. -/
def Obligations.DecodersIgnorePadding : Prop :=
  ∀ (i : Instr) (s : State) (src' : List Byte), i = .dec ∨ i = .decu ∨ i = .decs ∨ i = .envr →
    withinMax s.straps s.len = true → s.src.length = need s.len → src'.length = need s.len →
    (∀ t, t < 6 * s.len → byteBit s.src t = byteBit src' t) →
    ∃ d, exec i s = .next (answered s (bufferResponse d s.len)) ∧
      exec i { s with src := src' } = .next (answered { s with src := src' } (bufferResponse d s.len))

/-- R139: every byte a decoder writes is in 32..95, for any `SRC`. -/
def Obligations.DecodedBytesAreCharacters : Prop :=
  ∀ (i : Instr) (s t : State) (d : List Byte), i = .dec ∨ i = .decu ∨ i = .decs ∨ i = .envr →
    exec i s = .next t → t.resp.dst = some d → validText d

/-- R138: feeding ENC's `DST` and `OLEN` to DEC returns the text. -/
def Obligations.DecodeOfEncodeIsTheText : Prop :=
  ∀ s : State, validText s.src → withinMax s.straps s.src.length = true →
    ∃ b n, exec .enc s = .next (answered s (bufferResponse b n)) ∧
      exec .dec { s with src := b, len := n } =
        .next (answered { s with src := b, len := n } (bufferResponse s.src n))

/-! ## The envelope family -/

/-- R161, R160: MDET in every case. -/
def Obligations.MdetDetectsTrailingZero : Prop :=
  ∀ (last : Byte) (s : State),
    exec (.mdet last) s = .next (answered s
      { Response.empty with
        status := some 0, flag := some (decide (0 < s.len ∧ s.len % 4 = 0 ∧ last.toNat % 64 = 0)) })

/-- R163, R162: LREC in every case: every byte count recovers one length and one strip bit, which the response carries. -/
def Obligations.LrecRecoversTheLength : Prop :=
  ∀ (last : Byte) (s : State), ∃ n strip, Recovers s.straps s.len last n strip ∧
    (∀ n' strip', Recovers s.straps s.len last n' strip' → n' = n ∧ strip' = strip) ∧
    (withinMax s.straps n = false → exec (.lrec last) s = .next (answered s (errorResponse 6))) ∧
    (withinMax s.straps n = true → exec (.lrec last) s = .next (answered s
      { Response.empty with status := some 0, olen := some n, flag := some strip }))

/-- R164, R170: ENVB in every case; the marker is appended exactly when `n` is a positive multiple of 4 and the last
character is a space. -/
def Obligations.EnvbAnswers : Prop :=
  ∀ s : State,
    (withinMax s.straps s.src.length = false → exec .envb s = .next (answered s (errorResponse 6))) ∧
    (∀ i x, withinMax s.straps s.src.length = true → s.src[i]? = some x → ¬ validChar x →
      (∀ j y, j < i → s.src[j]? = some y → validChar y) →
      exec .envb s = .next (answered s (invalidCharacterResponse i x))) ∧
    (withinMax s.straps s.src.length = true → validText s.src →
      ∃ p, IsPacked s.src p ∧
        ((0 < s.src.length ∧ s.src.length % 4 = 0 ∧ s.src.getLast? = some 0x20 →
            exec .envb s = .next (answered s (envelopeResponse (p ++ [s.straps.marker]) s.src.length true))) ∧
         (¬ (0 < s.src.length ∧ s.src.length % 4 = 0 ∧ s.src.getLast? = some 0x20) →
            exec .envb s = .next (answered s (envelopeResponse p s.src.length false)))))

/-- R165, R162: ENVP in every case: every byte sequence is accepted, the bytes are kept as given, and the length and the
strip bit are what U_LREC recovers. -/
def Obligations.EnvpAnswers : Prop :=
  ∀ s : State, ∃ n strip, Recovers s.straps s.src.length (s.src.getLastD 0) n strip ∧
    (withinMax s.straps n = false → exec .envp s = .next (answered s (errorResponse 6))) ∧
    (withinMax s.straps n = true → exec .envp s = .next (answered s (envelopeResponse s.src n strip)))

/-- R166: ENVR in every case: a pair that meets the invariant is rendered, the marker byte cut off; any other faults. -/
def Obligations.EnvrAnswersOrFaults : Prop :=
  ∀ s : State,
    (withinMax s.straps s.len = false → exec .envr s = .next (answered s (errorResponse 6))) ∧
    (withinMax s.straps s.len = true → s.src.length = need s.len →
      ∃ t, IsUnpacked s.src s.len t ∧ exec .envr s = .next (answered s (bufferResponse t s.len))) ∧
    (∀ body, withinMax s.straps s.len = true → s.src = body ++ [s.straps.marker] → body.length = need s.len →
      s.len % 4 = 0 → ∃ t, IsUnpacked body s.len t ∧ exec .envr s = .next (answered s (bufferResponse t s.len))) ∧
    (withinMax s.straps s.len = true → s.src.length ≠ need s.len →
      (¬ ∃ body, s.src = body ++ [s.straps.marker] ∧ body.length = need s.len ∧ s.len % 4 = 0) →
      exec .envr s = .fault .uncheckedContract)

/-- R27: every envelope ENVB or ENVP produces satisfies exactly one of the two forms. -/
def Obligations.ConstructorsMeetTheEnvelopeInvariant : Prop :=
  ∀ (i : Instr) (s t : State) (b : List Byte) (n : Nat), i = .envb ∨ i = .envp →
    exec i s = .next t → t.resp.dst = some b → t.resp.olen = some n →
    (b.length = need n ∨ (b.length = need n + 1 ∧ n % 4 = 0 ∧ b.getLast? = some s.straps.marker)) ∧
    ¬ (b.length = need n ∧ b.length = need n + 1 ∧ n % 4 = 0 ∧ b.getLast? = some s.straps.marker)

/-- R168: `MARKER` is never the byte of a 1-character residue, so U_LREC reads that residue as a character. -/
def Obligations.MarkerIsNeverAResidue : Prop :=
  ∀ (st : Straps) (s : List Byte), st.wf = true → validText s → s.length % 4 = 1 →
    (pack s).getLast? ≠ some st.marker ∧
    (uLrec st (pack s).length (lastByte (pack s))).length = s.length ∧
    (uLrec st (pack s).length (lastByte (pack s))).strip = false

/-- R169 (1): an envelope from ENVB renders to the original text, whatever `REM0_RULE` is. -/
def Obligations.RenderingAnEnvelopeGivesTheText : Prop :=
  ∀ s : State, validText s.src → withinMax s.straps s.src.length = true →
    ∃ b f, exec .envb s = .next (answered s (envelopeResponse b s.src.length f)) ∧
      exec .envr { s with src := b, len := s.src.length } =
        .next (answered { s with src := b, len := s.src.length } (bufferResponse s.src s.src.length))

/-- R169 (2) and (3), R234: what ENVP recovers from the bytes of ENVB's envelope: the length under
`TRAILING_ZERO_SHORTER`, and under `COUNT` unless it is 3 mod 4; then one more, and ENVR of that pair returns the text
with one extra space. For that case the statement needs the longer length within `MAX_LEN`: R165 answers CAPACITY
otherwise (log 13). -/
def Obligations.RawBytesRoundTripRecoversTheLength : Prop :=
  ∀ s : State, s.straps.wf = true → validText s.src → withinMax s.straps s.src.length = true →
    ∃ b f, exec .envb s = .next (answered s (envelopeResponse b s.src.length f)) ∧
      (s.straps.rem0Rule = .trailingZeroShorter ∨ s.src.length % 4 ≠ 3 →
        exec .envp { s with src := b } = .next (answered { s with src := b } (envelopeResponse b s.src.length f))) ∧
      (s.straps.rem0Rule = .count → s.src.length % 4 = 3 → withinMax s.straps (s.src.length + 1) = true →
        exec .envp { s with src := b } = .next (answered { s with src := b } (envelopeResponse b (s.src.length + 1) f)) ∧
        exec .envr { s with src := b, len := s.src.length + 1 } =
          .next (answered { s with src := b, len := s.src.length + 1 }
            (bufferResponse (s.src ++ [0x20]) (s.src.length + 1))))

/-- R235: a marked envelope rendered by ENVR reads as DECU reads its bytes without the last one; DECU on the uncut bytes
is a broken contract, but for `LEN = 0`, where DECU gives the empty text whatever `SRC` holds (R134). -/
def Obligations.DecuMustBeGivenTheCutBytes : Prop :=
  ∀ s : State, withinMax s.straps s.len = true → s.len % 4 = 0 →
    s.src.length = need s.len + 1 → s.src.getLast? = some s.straps.marker →
    (∃ d, exec .envr s = .next (answered s (bufferResponse d s.len)) ∧
      exec .decu { s with src := s.src.dropLast } =
        .next (answered { s with src := s.src.dropLast } (bufferResponse d s.len))) ∧
    (0 < s.len → exec .decu s = .fault .uncheckedContract) ∧
    (s.len = 0 → exec .decu s = .next (answered s (bufferResponse [] 0)))

/-! ## Outcomes of all commands -/

/-- R208, R209: CAPACITY is raised exactly when a command's character count exceeds `MAX_LEN`, before any other check;
GENC, GDEC and MDET never raise it. -/
def Obligations.CapacityIsRaisedExactly : Prop :=
  ∀ (i : Instr) (s : State),
    (∀ n, charCount i s = some n → withinMax s.straps n = false → exec i s = .next (answered s (errorResponse 6))) ∧
    (∀ t, exec i s = .next t → t.resp.status = some 6 →
      ∃ n, charCount i s = some n ∧ withinMax s.straps n = false)

/-- R206: the only fault of a command is `UNCHECKED_CONTRACT`, in exactly three cases, and no command is refused. -/
def Obligations.FaultsAreExactlyBrokenContracts : Prop :=
  ∀ (i : Instr) (s : State),
    (∀ f, exec i s = .fault f ↔
      (f = .uncheckedContract ∧
        ((i = .encu ∧ withinMax s.straps s.src.length = true ∧ ¬ validText s.src) ∨
         (i = .decu ∧ withinMax s.straps s.len = true ∧ 0 < s.len ∧ s.src.length ≠ need s.len) ∨
         (i = .envr ∧ withinMax s.straps s.len = true ∧
           envelopeOk s.straps { envBytes := s.src, envLen := s.len } = false)))) ∧
    (∀ r, exec i s ≠ .refused r)

/-- R233: a host that keeps its contract gets a response from every command. -/
def Obligations.KeptContractsNeverFault : Prop :=
  ∀ (i : Instr) (s : State), contractHeld i s = true → ∃ r, exec i s = .next (answered s r)

/-- R204, R205, R202, R203, R67: the statuses commands produce; INVALID_SIXBIT_VALUE, MALFORMED_ENVELOPE and the reserved
codes never. -/
def Obligations.StatusesCommandsProduce : Prop :=
  ∀ (i : Instr) (s t : State), exec i s = .next t →
    t.resp.status = some 0 ∨
    (t.resp.status = some 1 ∧ (i = .enc ∨ i = .envb)) ∨
    (t.resp.status = some 2 ∧ (i = .dec ∨ i = .decs)) ∨
    (t.resp.status = some 6 ∧ (charCount i s).isSome = true)

/-- R201, R23, R61: an error response carries `STATUS`, and `IDX` and `CODE` for INVALID_CHARACTER only; an OK response
carries `STATUS` and exactly the ports the opcode map lists. -/
def Obligations.ResponsesCarryExactlyTheListedPorts : Prop :=
  ∀ (i : Instr) (s t : State), exec i s = .next t →
    (t.resp.status = some 0 →
      ∀ p, (∃ v, readPort t.resp p = .ok v) ↔ (p = .status ∨ p ∈ portsOnOk i)) ∧
    (t.resp.status = some 1 →
      ∀ p, (∃ v, readPort t.resp p = .ok v) ↔ (p = .status ∨ p = .idx ∨ p = .code)) ∧
    (t.resp.status ≠ some 0 → t.resp.status ≠ some 1 →
      ∀ p, (∃ v, readPort t.resp p = .ok v) ↔ p = .status)

/-- The frame of every command (60_exceptions.md R201, 20_memory.md R40, R41): the parameters, the `LEN` port, every byte
of `SRC`, the host's envelopes and its acts are unchanged; the command port is empty and the response ports are the
response's. -/
def Obligations.CommandsChangeOnlyTheResponsePorts : Prop :=
  ∀ (i : Instr) (s t : State), exec i s = .next t →
    t.straps = s.straps ∧ t.len = s.len ∧ t.src.length = s.src.length ∧
    (∀ a, memRead t.src a = memRead s.src a) ∧
    t.envelopes = s.envelopes ∧ t.host = s.host ∧ t.cw = none

/-- R20, R22: a response is a function of the parameters and the ports the command lists as read: no earlier response, no
envelope and no other port has an effect. -/
def Obligations.ResponsesDependOnlyOnPortsRead : Prop :=
  ∀ (i : Instr) (s s' : State), s.straps = s'.straps → (readsLen i = true → s.len = s'.len) →
    (readsSrc i = true → s.src = s'.src) →
    (∀ r, exec i s = .next (answered s r) ↔ exec i s' = .next (answered s' r)) ∧
    (∀ f, exec i s = .fault f ↔ exec i s' = .fault f)

/-! ## Runs -/

/-- R50, R20: of the commands a host issues one after another, each is answered, in the order of issue, with the response
it gives alone, right after reset. The host as a list of acts is the model's choice (log 5). -/
def Obligations.CommandsAreAnsweredInOrderAsIfAlone : Prop :=
  ∀ (s t : State) (cs : List Command) (k : Nat) (c : Command),
    s.cw = none → s.host = cs.map HostAct.issue → cs[k]? = some c → core.run (2 * (k + 1)) s = .next t →
    t.cw = none ∧ t.host = (cs.drop (k + 1)).map HostAct.issue ∧
    ∃ u, core.run 2 { State.resetWith s.straps with host := [.issue c] } = .next u ∧ t.resp = u.resp

/-- R237: every command terminates: two steps after it is issued it is answered, or has faulted on a broken contract. The
host as a list of acts is the model's choice (log 5). -/
def Obligations.EveryCommandTerminates : Prop :=
  ∀ (s : State) (c : Command) (rest : List HostAct), s.cw = none → s.host = .issue c :: rest →
    c.wf s.straps = true → (∀ a, rest.head? = some a → a.waits = true) →
    (∃ t, core.run 2 s = .next t ∧ t.cw = none ∧ t.host = rest ∧ t.resp.status ≠ none) ∨
    core.run 2 s = .fault .uncheckedContract

/-- R214: instances share nothing: in any interleaving, each instance does what it does alone. The list of instances and the
schedule are the model's choice (log 17). -/
def Obligations.InstancesAreIndependent : Prop :=
  ∀ (ks : List Nat) (sys sys' : List State), runSchedule ks sys = .next sys' →
    sys'.length = sys.length ∧
    ∀ (j : Nat) (s : State), sys[j]? = some s →
      ∃ s', sys'[j]? = some s' ∧ core.run (ks.count j) s = .next s'

/-! ## Invariants -/

/-- Every step keeps the invariant of Safety.lean, from every state that meets it. -/
def Obligations.StepKeepsTheInvariant : Prop :=
  ∀ s t : State, s.Inv → step s = .next t → t.Inv

/-- R24, R28: no step changes a parameter, and no step changes or drops an envelope the host keeps. That at most one is
added, and that it is what a response with `DST`, `OLEN` and `FLAG` carries, is the model's choice (log 16). -/
def Obligations.ParametersAndKeptEnvelopesNeverChange : Prop :=
  ∀ s t : State, step s = .next t →
    t.straps = s.straps ∧
    (t.envelopes = s.envelopes ∨
      ∃ b n f, s.resp.dst = some b ∧ s.resp.olen = some n ∧ s.resp.flag = some f ∧
        t.envelopes = s.envelopes ++ [{ envBytes := b, envLen := n }])

/-- The invariant holds at reset, with the default parameters and with any that meet their constraints (R231). -/
def Obligations.ResetMeetsTheInvariant : Prop :=
  State.reset.Inv ∧ ∀ st : Straps, st.wf = true → (State.resetWith st).Inv

/-- R22, R23, R231: under the invariant every length on a response port fits the `W_LEN` bits of its port. -/
def Obligations.ResponseLengthsFitTheirPorts : Prop :=
  ∀ s : State, s.Inv →
    (∀ n, s.resp.olen = some n → s.straps.lenFits n = true) ∧
    (∀ n, s.resp.idx = some n → s.straps.lenFits n = true)

/-- R28, R233: under the invariant every envelope the host keeps is rendered by ENVR, with no fault and no error. -/
def Obligations.KeptEnvelopesRender : Prop :=
  ∀ (s : State) (e : Envelope), s.Inv → e ∈ s.envelopes →
    ∃ d, exec .envr { s with src := e.envBytes, len := e.envLen } =
      .next (answered { s with src := e.envBytes, len := e.envLen } (bufferResponse d e.envLen)) ∧
      d.length = e.envLen
end

