-- ==== Sys2Proof/Tests/Slice0.lean ====
section
/-! SUPPORT. Small tests. Every expected value is from spec/95_test_vectors.md, the examples and corner cases of the
command rules, or hand calculation from the rules; and a witness for the hypotheses of each statement. -/

namespace Sys2Proof.Tests

open Sys2Proof Sys2Proof.Machine

/-! ## Helpers -/

def respOf (o : Result) : Option Response :=
  match o with
  | .next t => some t.resp
  | .fault _ => none
  | .refused _ => none

def faultOf (o : Result) : Option Fault :=
  match o with
  | .next _ => none
  | .fault f => some f
  | .refused _ => none

def refusalOf (o : Result) : Option Refusal :=
  match o with
  | .next _ => none
  | .fault _ => none
  | .refused r => some r

/-- The machine after reset with `LEN` and `SRC` driven. -/
def ports (len : Nat) (src : List Byte) : State := { State.reset with len := len, src := src }

/-- The same on an instance with `MAX_LEN = m` and 4-bit length ports. -/
def portsMax (m len : Nat) (src : List Byte) : State :=
  { ports len src with straps := { Straps.standard with maxLen := some m, wLen := some 4 } }

/-- The same on an instance with `REM0_RULE = TRAILING_ZERO_SHORTER`. -/
def portsTzs (len : Nat) (src : List Byte) : State :=
  { ports len src with straps := { Straps.standard with rem0Rule := .trailingZeroShorter } }

/-- `"HELLO"`, its packed bytes, `"TEST    "` and its envelope (95_test_vectors.md). -/
def hello : List Byte := [0x48, 0x45, 0x4C, 0x4C, 0x4F]
def helloPacked : List Byte := [0xA2, 0x5B, 0x2C, 0xBC]
def testSpaces : List Byte := [0x54, 0x45, 0x53, 0x54, 0x20, 0x20, 0x20, 0x20]
def testEnvelope : List Byte := [0xD2, 0x5C, 0xF4, 0x00, 0x00, 0x00, 0x03]

/-! ## WellFormed: each check refuses an ill-formed term -/

theorem test_marker_low_bits_zero_refused : ({ Straps.standard with marker := 0xFC } : Straps).wf = false := by decide
theorem test_max_len_over_port_refused :
    ({ Straps.standard with maxLen := some 16, wLen := some 4 } : Straps).wf = false := by decide
theorem test_max_len_at_port_limit_accepted :
    ({ Straps.standard with maxLen := some 15, wLen := some 4 } : Straps).wf = true := by decide
theorem test_len_wider_than_port_refused :
    (Command.mk 0 16 []).wf { Straps.standard with maxLen := some 15, wLen := some 4 } = false := by decide
theorem test_envelope_of_wrong_length_refused : envelopeOk Straps.standard ⟨[0x84, 0x03], 1⟩ = false := by decide
theorem test_envelope_without_marker_refused : envelopeOk Straps.standard ⟨[0, 0, 0, 0], 4⟩ = false := by decide
theorem test_accessors :
    envelopeRawBytes ⟨testEnvelope, 8⟩ = testEnvelope ∧ envelopeOriginalLength ⟨testEnvelope, 8⟩ = 8 := by decide

/-! ## Decoding: words written out from 30_encoding.md R60, R61 and 95_test_vectors.md -/

theorem test_decode_enc : decode 0b00000000000000000000000000000000 = .ok .enc := by decide
theorem test_decode_encu : decode 0b00000000000000000000000000000001 = .ok .encu := by decide
theorem test_decode_dec : decode 0b00000000000000000000000000000010 = .ok .dec := by decide
theorem test_decode_decu : decode 0b00000000000000000000000000000011 = .ok .decu := by decide
theorem test_decode_decs : decode 0b00000000000000000000000000000100 = .ok .decs := by decide
theorem test_decode_envb : decode 0b00000000000000000000000000000101 = .ok .envb := by decide
theorem test_decode_envp : decode 0b00000000000000000000000000000110 = .ok .envp := by decide
theorem test_decode_envr : decode 0b00000000000000000000000000000111 = .ok .envr := by decide
/-- `DATA24 = 0x8628C0`, reserved bits 11 and ignored, `KM1 = 10`, `OP = 1000`. -/
theorem test_decode_genc : decode 0b10000110001010001100000011101000 = .ok (.genc 2 0x8628C0) := by decide
/-- `DATA24 = 0x862000`, reserved bits 00, `KM1 = 01`, `OP = 1001`. -/
theorem test_decode_gdec : decode 0b10000110001000000000000000011001 = .ok (.gdec 1 0x862000) := by decide
/-- `CW[31:16]` and `CW[7:4]` ones and ignored, `LAST = 0xC0`, `OP = 1010`. -/
theorem test_decode_mdet : decode 0b11111111111111111100000011111010 = .ok (.mdet 0xC0) := by decide
/-- `LAST = 0x03`, `OP = 1011`. -/
theorem test_decode_lrec : decode 0b00000000000000000000001100001011 = .ok (.lrec 0x03) := by decide
theorem test_decode_reserved : decode 0x0000000C = .error (.reservedOp 0xC) ∧ decode 0xFFFFFFFF = .error (.reservedOp 0xF) := by
  decide
/-- The words of 95_test_vectors.md 2.1, 2.2 and 2.6. -/
theorem test_encode_words :
    encode (.genc 2 0x8628C0) = 0x8628C028 ∧ encode (.gdec 3 0x8628E4) = 0x8628E439 ∧
    encode (.lrec 0xE4) = 0x0000E40B ∧ encode (.mdet 0xF4) = 0x0000F40A := by decide
theorem test_decodeTableWord : decodeTableWord 32 0x0000C00A = some (.mdet 0xC0) ∧ decodeTableWord 32 0xD = none := by decide

/-! ## The commands -/

/-- P1. -/
theorem test_enc_hello : respOf (exec .enc (ports 0 hello)) = some (bufferResponse helloPacked 5) := by decide
/-- Section 2.3: the lowest index, not the later lower-case letters. -/
theorem test_enc_lowest_index :
    respOf (exec .enc (ports 0 [0x54, 0x45, 0x09, 0x74, 0x65])) = some (invalidCharacterResponse 2 0x09) := by decide
/-- Section 2.3: `" _ _"`. -/
theorem test_encu_values : respOf (exec .encu (ports 0 [0x20, 0x5F, 0x20, 0x5F])) =
    some (bufferResponse [0x03, 0xF0, 0x3F] 4) := by decide
theorem test_encu_fault : faultOf (exec .encu (ports 0 [0x41, 0x62])) = some .uncheckedContract := by decide
/-- R133: the same bytes, one more character. -/
theorem test_dec_four : respOf (exec .dec (ports 4 [0x86, 0x28, 0xC0])) =
    some (bufferResponse [0x41, 0x42, 0x43, 0x20] 4) := by decide
/-- 90_conflicts.md C5. -/
theorem test_dec_zero_nonempty : respOf (exec .dec (ports 0 [0x00])) = some (errorResponse 2) := by decide
theorem test_decu_zero_nonempty : respOf (exec .decu (ports 0 [0x00])) = some (bufferResponse [] 0) := by decide
theorem test_decu_fault : faultOf (exec .decu (ports 3 [0x86, 0x20])) = some .uncheckedContract := by decide
theorem test_decs_all_ones : respOf (exec .decs (ports 4 [0xFF, 0xFF, 0xFF])) =
    some (bufferResponse [0x5F, 0x5F, 0x5F, 0x5F] 4) := by decide
/-- Section 2.4: padding `111111` ignored. -/
theorem test_decs_padding : respOf (exec .decs (ports 3 [0x86, 0x28, 0xFF])) =
    some (bufferResponse [0x41, 0x42, 0x43] 3) := by decide
theorem test_envb_marker : respOf (exec .envb (ports 0 testSpaces)) = some (envelopeResponse testEnvelope 8 true) := by decide
/-- Section 2.7: `"ABCDEF "` ends in a space, but its length is 7. -/
theorem test_envb_no_marker : respOf (exec .envb (ports 0 [0x41, 0x42, 0x43, 0x44, 0x45, 0x46, 0x20])) =
    some (envelopeResponse [0x86, 0x28, 0xE4, 0x96, 0x60, 0x00] 7 false) := by decide
/-- P3. -/
theorem test_envp_count : respOf (exec .envp (ports 0 [0x86, 0x28, 0xC0])) =
    some (envelopeResponse [0x86, 0x28, 0xC0] 4 false) := by decide
theorem test_envp_shorter : respOf (exec .envp (portsTzs 0 [0x86, 0x28, 0xC0])) =
    some (envelopeResponse [0x86, 0x28, 0xC0] 3 false) := by decide
/-- P2. -/
theorem test_envr_cuts_marker : respOf (exec .envr (ports 8 testEnvelope)) = some (bufferResponse testSpaces 8) := by decide
theorem test_envr_fault : faultOf (exec .envr (ports 3 [0x00, 0x00, 0x00, 0x03])) = some .uncheckedContract := by decide
/-- Section 2.1. -/
theorem test_genc_two : respOf (exec (.genc 1 0xFFFFFF) State.reset) =
    some { Response.empty with status := some 0, wout := some 0xFFF000, m := some 2 } := by decide
/-- Section 2.2: nonzero padding. -/
theorem test_gdec_padding : respOf (exec (.gdec 1 0x862F00) State.reset) =
    some { Response.empty with status := some 0, wout := some 0x862000 } := by decide
/-- Section 2.5. -/
theorem test_mdet_low_bits : respOf (exec (.mdet 0xC0) (ports 4 [])) =
    some { Response.empty with status := some 0, flag := some true } := by decide
theorem test_mdet_length_zero : respOf (exec (.mdet 0x00) (ports 0 [])) =
    some { Response.empty with status := some 0, flag := some false } := by decide
/-- Section 2.6. -/
theorem test_lrec_marker : respOf (exec (.lrec 0x03) (ports 7 [])) =
    some { Response.empty with status := some 0, olen := some 8, flag := some true } := by decide
theorem test_lrec_shorter : respOf (exec (.lrec 0x00) (portsTzs 9 [])) =
    some { Response.empty with status := some 0, olen := some 11, flag := some false } := by decide
/-- Section 2.3: CAPACITY comes before INVALID_CHARACTER. -/
theorem test_capacity_first :
    respOf (exec .enc (portsMax 4 0 [0x61, 0x62, 0x63, 0x64, 0x65])) = some (errorResponse 6) := by decide
/-- Section 2.6: `MAX_LEN = 7` under COUNT. -/
theorem test_lrec_capacity : respOf (exec (.lrec 0x00) (portsMax 7 6 [])) = some (errorResponse 6) := by decide

/-! ## The step -/

theorem test_step_first_word : respOf (step (State.reset.withFetchWord 32 0x8628C028)) =
    some { Response.empty with status := some 0, wout := some 0x8628C0, m := some 3 } := by decide
theorem test_step_reserved : respOf (step (State.reset.withFetchWord 32 0xFFFFFFFF)) = some (errorResponse 5) := by decide
/-- P1 as a run: two commands, each issued and then answered. -/
theorem test_run_p1 :
    respOf (core.run 4 { State.reset with host := [.issue ⟨0x00000000, 0, hello⟩, .issue ⟨0x00000002, 5, helloPacked⟩] }) =
      some (bufferResponse hello 5) := by decide
theorem test_read_after_reset :
    faultOf (step { State.reset with host := [.readPort .dst] }) = some (.portHasNoValue .dst) := by decide
theorem test_reset_drops_command :
    respOf (core.run 3 { State.reset with host := [.issue ⟨0, 0, hello⟩, .assertReset] }) = some Response.empty := by decide
theorem test_src_change_refused :
    refusalOf (core.run 2 { State.reset with host := [.issue ⟨0, 0, hello⟩, .changeSrc []] }) = some .srcChangedWhileRunning := by
  decide
theorem test_memWrite : memRead (memWrite [1, 2, 3] 1 9) 1 = some 9 ∧ memRead (memWrite [1, 2, 3] 1 9) 2 = some 3 := by decide

/-! ## Witnesses: states and operands that meet the hypotheses of the statements -/

theorem witness_DecodeEncodeRoundTrip : Instr.wf (.genc 3 0xFFFFFF) = true := by decide

/-- A command in progress and an act of the host that waits. -/
def busy : State := { ports 0 hello with cw := some 0, host := [.readPort .dst] }

theorem witness_StepRunsTheDecodedCommand :
    busy.cw = some 0 ∧ (∀ a, busy.host.head? = some a → a.waits = true) ∧ decode 0 = .ok .enc :=
  ⟨rfl, fun _ h => by cases h; rfl, by decide⟩

theorem witness_ReservedOpAnswersIllegalOp :
    (State.reset.withFetchWord 32 0xC).cw = some 0xC ∧
    (∀ a, (State.reset.withFetchWord 32 0xC).host.head? = some a → a.waits = true) ∧
    12 ≤ ((0xC : CmdWord).extractLsb' 0 4).toNat :=
  ⟨rfl, (fun _ h => nomatch h), by decide⟩

theorem witness_IdleBlockStays : State.reset.cw = none ∧ State.reset.host = [] := by decide

theorem witness_AssertedResetDropsTheCommand :
    ({ busy with host := [.assertReset] } : State).host = .assertReset :: [] ∧
    ({ busy with host := [.assertReset] } : State).cw = some 0 := by decide

/-- Both clauses of the issue: a `LEN` at the limit of a 4-bit port, and one above it. -/
theorem witness_IssuePresentsTheCommand :
    (portsMax 15 0 []).cw = none ∧
    ({ portsMax 15 0 [] with host := [.issue ⟨2, 15, []⟩] } : State).host = .issue ⟨2, 15, []⟩ :: [] ∧
    (Command.mk 2 15 []).wf (portsMax 15 0 []).straps = true ∧
    (Command.mk 2 16 []).wf (portsMax 15 0 []).straps = false := by decide

/-- An idle state whose response carries an envelope. -/
def afterEnvb : State := { ports 0 testSpaces with resp := envelopeResponse testEnvelope 8 true }

theorem witness_ReadingAPortWithoutValueFaults :
    afterEnvb.cw = none ∧ readPort afterEnvb.resp .flag = .ok (.flag true) ∧
    (¬ ∃ v, readPort afterEnvb.resp .wout = .ok v) :=
  ⟨rfl, rfl, fun ⟨_, h⟩ => by cases h⟩

theorem witness_ChangingSrcWhileRunningIsRefused : busy.cw ≠ none ∧ afterEnvb.cw = none := by decide

theorem witness_KeepingAnEnvelopeNeedsAConstructor :
    afterEnvb.cw = none ∧ afterEnvb.resp.dst = some testEnvelope ∧ afterEnvb.resp.olen = some 8 ∧
    afterEnvb.resp.flag = some true ∧ (bufferResponse helloPacked 5).flag = none := by decide

theorem witness_CharacterMapIsABijection : validChar 0x20 ∧ validChar 0x5F ∧ ¬ validChar 0x60 := by decide

theorem witness_line_units_group_sizes : 1 ≤ 1 ∧ 1 ≤ 4 ∧ 4 ≤ 4 := by decide

/-- ENC, ENCU and ENVB: over capacity, at capacity and valid, an invalid code after a valid one. -/
theorem witness_EncAnswers :
    withinMax (portsMax 4 0 hello).straps hello.length = false ∧
    (withinMax (portsMax 5 0 hello).straps hello.length = true ∧ validText hello) ∧
    (withinMax Straps.standard 2 = true ∧ ([0x41, 0x62] : List Byte)[1]? = some 0x62 ∧ ¬ validChar 0x62) := by decide

theorem witness_EncAnswers_least :
    ∀ j y, j < 1 → ([0x41, 0x62] : List Byte)[j]? = some y → validChar y := by
  intro j y hj hy
  obtain rfl : j = 0 := by omega
  cases hy
  decide

theorem witness_EncuAnswersOrFaults :
    withinMax Straps.standard 2 = true ∧ ¬ validText [0x41, 0x62] ∧ validText hello := by decide

theorem witness_EncAndEncuAgree : validText hello ∧ withinMax Straps.standard hello.length = true := by decide

/-- DEC, DECU and DECS: over capacity, a wrong length, a right length, and `LEN = 0`. -/
theorem witness_DecAnswers :
    withinMax (portsMax 4 5 helloPacked).straps 5 = false ∧
    (withinMax Straps.standard 5 = true ∧ helloPacked.length = need 5 ∧ 0 < 5) ∧
    (withinMax Straps.standard 6 = true ∧ helloPacked.length ≠ need 6 ∧ 0 < 6) ∧
    (ports 0 [0x00]).len = 0 := by decide

theorem witness_DecodersIgnorePadding :
    withinMax Straps.standard 1 = true ∧ ([0x84] : List Byte).length = need 1 ∧ ([0x87] : List Byte).length = need 1 ∧
    (∀ t, t < 6 * 1 → byteBit [0x84] t = byteBit [0x87] t) := by decide

theorem witness_DecodedBytesAreCharacters :
    (respOf (exec .dec (ports 5 helloPacked))).bind Response.dst = some hello := by decide

theorem witness_DecodeOfEncodeIsTheText : validText hello ∧ withinMax (portsMax 5 0 hello).straps hello.length = true := by
  decide

/-- LREC and ENVP: a recovered length within and above `MAX_LEN`. -/
theorem witness_LrecRecoversTheLength :
    Recovers (portsMax 7 6 []).straps 6 0x00 8 false ∧ withinMax (portsMax 7 6 []).straps 8 = false ∧
    Recovers (portsMax 7 4 []).straps 4 0x03 4 true ∧ withinMax (portsMax 7 4 []).straps 4 = true :=
  ⟨⟨2, .inl (by decide)⟩, by decide, ⟨1, .inr (.inr (.inl (by decide)))⟩, by decide⟩

/-- ENVB: the marker's condition met and not met. -/
theorem witness_EnvbAnswers :
    validText testSpaces ∧ withinMax Straps.standard testSpaces.length = true ∧
    (0 < testSpaces.length ∧ testSpaces.length % 4 = 0 ∧ testSpaces.getLast? = some 0x20) ∧
    ¬ (0 < hello.length ∧ hello.length % 4 = 0 ∧ hello.getLast? = some 0x20) := by decide

/-- ENVR: over capacity, an unmarked pair, a marked pair, and a pair outside the invariant. -/
theorem witness_EnvrAnswersOrFaults :
    withinMax (portsMax 4 5 helloPacked).straps 5 = false ∧
    helloPacked.length = need 5 ∧
    (testEnvelope = [0xD2, 0x5C, 0xF4, 0x00, 0x00, 0x00] ++ [Straps.standard.marker] ∧
      ([0xD2, 0x5C, 0xF4, 0x00, 0x00, 0x00] : List Byte).length = need 8 ∧ 8 % 4 = 0) ∧
    ([0x84, 0x03] : List Byte).length ≠ need 1 := by decide

theorem witness_EnvrAnswersOrFaults_outside :
    ¬ ∃ body, ([0x84, 0x03] : List Byte) = body ++ [Straps.standard.marker] ∧ body.length = need 1 ∧ 1 % 4 = 0 := by
  rintro ⟨_, _, _, h⟩
  cases h

theorem witness_ConstructorsMeetTheEnvelopeInvariant :
    (respOf (exec .envb (ports 0 testSpaces))).bind Response.dst = some testEnvelope ∧
    (respOf (exec .envp (ports 0 [0x03]))).bind Response.olen = some 0 := by decide

theorem witness_MarkerIsNeverAResidue : Straps.standard.wf = true ∧ validText hello ∧ hello.length % 4 = 1 := by decide

theorem witness_RenderingAnEnvelopeGivesTheText :
    validText testSpaces ∧ withinMax (ports 0 testSpaces).straps testSpaces.length = true := by decide

/-- The raw-bytes round trip: both values of `REM0_RULE`, and the length 3. -/
theorem witness_RawBytesRoundTripRecoversTheLength :
    Straps.standard.wf = true ∧ validText [0x41, 0x42, 0x43] ∧ Straps.standard.rem0Rule = .count ∧
    ([0x41, 0x42, 0x43] : List Byte).length % 4 = 3 ∧ withinMax Straps.standard 4 = true ∧
    (portsTzs 0 []).straps.wf = true ∧ (portsTzs 0 []).straps.rem0Rule = .trailingZeroShorter := by decide

/-- Marked envelopes with a positive length and with `LEN = 0`. -/
theorem witness_DecuMustBeGivenTheCutBytes :
    (withinMax Straps.standard 8 = true ∧ 8 % 4 = 0 ∧ testEnvelope.length = need 8 + 1 ∧
      testEnvelope.getLast? = some Straps.standard.marker) ∧
    (withinMax Straps.standard 0 = true ∧ 0 % 4 = 0 ∧ ([0x03] : List Byte).length = need 0 + 1 ∧
      ([0x03] : List Byte).getLast? = some Straps.standard.marker) := by decide

theorem witness_CapacityIsRaisedExactly :
    charCount .enc (portsMax 4 0 hello) = some 5 ∧ withinMax (portsMax 4 0 hello).straps 5 = false ∧
    (respOf (exec .enc (portsMax 4 0 hello))).bind Response.status = some 6 := by decide

theorem witness_FaultsAreExactlyBrokenContracts :
    (withinMax Straps.standard 1 = true ∧ ¬ validText [0x1F]) ∧
    (withinMax Straps.standard 1 = true ∧ ([] : List Byte).length ≠ need 1) ∧
    envelopeOk Straps.standard ⟨[0x00, 0x00, 0x00, 0x00], 4⟩ = false := by decide

theorem witness_KeptContractsNeverFault :
    contractHeld .encu (ports 0 hello) = true ∧ contractHeld .decu (ports 0 [0x00]) = true ∧
    contractHeld .envr (ports 8 testEnvelope) = true := by decide

/-- An OK response, INVALID_CHARACTER, and an error that comes alone. -/
theorem witness_responses_of_each_status :
    (respOf (exec .envb (ports 0 testSpaces))).bind Response.status = some 0 ∧
    (respOf (exec .enc (ports 0 [0x61]))).bind Response.status = some 1 ∧
    (respOf (exec .dec (ports 3 [0x86, 0x20]))).bind Response.status = some 2 := by decide

/-- Two states that differ in everything MDET does not read. -/
theorem witness_ResponsesDependOnlyOnPortsRead :
    (ports 4 []).straps = afterEnvb.straps ∧ (ports 4 []).len = ({ afterEnvb with len := 4 } : State).len ∧
    readsSrc (.mdet 0) = false ∧ (ports 4 []).src ≠ afterEnvb.src := by decide

theorem witness_CommandsAreAnsweredInOrderAsIfAlone :
    ({ State.reset with host := [⟨0, 0, hello⟩, ⟨2, 5, helloPacked⟩].map HostAct.issue } : State).cw = none ∧
    ([⟨0, 0, hello⟩, ⟨2, 5, helloPacked⟩] : List Command)[1]? = some ⟨2, 5, helloPacked⟩ ∧
    respOf (core.run (2 * (1 + 1))
      { State.reset with host := [⟨0, 0, hello⟩, ⟨2, 5, helloPacked⟩].map HostAct.issue }) =
      some (bufferResponse hello 5) := by decide

theorem witness_EveryCommandTerminates :
    State.reset.cw = none ∧ (Command.mk 0 0 hello).wf State.reset.straps = true ∧
    (∀ a, ([.keepEnvelope] : List HostAct).head? = some a → a.waits = true) :=
  ⟨rfl, by decide, fun _ h => by cases h; rfl⟩

theorem witness_InstancesAreIndependent :
    ∃ sys', runSchedule [0, 1, 0] [busy, State.reset.withFetchWord 32 0xC] = .next sys' := ⟨_, rfl⟩

theorem witness_StepKeepsTheInvariant :
    ({ State.reset with host := [.issue ⟨0, 0, hello⟩] } : State).Inv ∧
    ∃ t, step { State.reset with host := [.issue ⟨0, 0, hello⟩] } = .next t :=
  ⟨⟨by decide, by decide, .inl rfl, fun _ h => by cases h⟩, _, rfl⟩

/-- A configuration with finite straps at their limit. -/
theorem witness_ResetMeetsTheInvariant : (portsMax 15 0 []).straps.wf = true := by decide

/-- A response with a length at `MAX_LEN`, on ports of 4 bits. -/
theorem witness_ResponseLengthsFitTheirPorts :
    ({ portsMax 15 0 [] with resp := { Response.empty with status := some 0, olen := some 15, flag := some false } } :
      State).Inv := by
  refine ⟨by decide, by decide, .inr (.inl ⟨rfl, rfl, rfl, ?_, ?_, ?_⟩), fun _ h => by cases h⟩
  · intro n h
    cases h
    decide
  · intro k h
    cases h
  · intro b n f h
    cases h

theorem witness_KeptEnvelopesRender :
    ({ State.reset with envelopes := [⟨testEnvelope, 8⟩] } : State).Inv ∧
    (⟨testEnvelope, 8⟩ : Envelope) ∈ [(⟨testEnvelope, 8⟩ : Envelope)] := by
  refine ⟨⟨by decide, by decide, .inl rfl, ?_⟩, by simp⟩
  intro e he
  obtain rfl : e = ⟨testEnvelope, 8⟩ := by simpa [State.reset, State.resetWith] using he
  decide

end Sys2Proof.Tests
end

section
/-! PROOFS. The statements of 00_scope.md: a step runs the decoded command (section 4, R7), and the forms of `need`
(R12). -/

namespace Sys2Proof.Machine

/-- While a command is on the port and the host's next act, if any, waits for its response, the block moves. -/
theorem step_eq_blockMove_of_waits {s : State} {w : CmdWord} (hcw : s.cw = some w)
    (hwaits : ∀ a, s.host.head? = some a → a.waits = true) : step s = blockMove s := by
  rcases step_cases s with ⟨a, rest, hhost, hmoves, -⟩ | ⟨-, hstep⟩
  · have ha : a.waits = true := hwaits a (by simp [hhost])
    simp [ha, hcw] at hmoves
  · exact hstep

theorem blockMove_of_decode_ok {s : State} {w : CmdWord} {i : Instr} (hcw : s.cw = some w) (hd : decode w = .ok i) :
    blockMove s = exec i s := by
  simp only [blockMove, hcw, hd]

/-- `q` full groups and `r` further characters pack into `3q + r` bytes. -/
theorem need_four_mul_add (q : Nat) {r : Nat} (hr : r < 4) : need (4 * q + r) = 3 * q + r := by
  unfold need; omega

/-- The form `ceil(n*6/8)` of 00_scope.md R12. -/
theorem need_eq_ceil_eighths (n : Nat) : need n = (6 * n + 7) / 8 := by
  unfold need; omega

/-- The form `ceil(n*3/4)` of 00_scope.md R12. -/
theorem need_eq_ceil_quarters (n : Nat) : need n = (3 * n + 3) / 4 := by
  unfold need; omega

end Sys2Proof.Machine

namespace Sys2Proof.Proofs

open Sys2Proof Sys2Proof.Machine

/-- Settles O5: the waiting act leaves the move to the block, and the block's move on a decoded word is `exec`. -/
theorem stepRunsTheDecodedCommand : Obligations.StepRunsTheDecodedCommand := by
  intro s w i hcw hwaits hd
  calc step s = blockMove s := step_eq_blockMove_of_waits hcw hwaits
    _ = exec i s := blockMove_of_decode_ok hcw hd

/-- Settles O14: the two ceilings agree with the exact form the model takes as its definition, and `4q + 4` characters,
one full group more than `4q`, need as many bytes as `4q + 3`. -/
theorem needHasThreeEqualForms : Obligations.NeedHasThreeEqualForms := by
  refine ⟨fun n => ⟨need_eq_ceil_eighths n, need_eq_ceil_quarters n, rfl⟩, fun q => ⟨?_, ?_⟩⟩
  · exact need_four_mul_add q (by decide)
  · calc need (4 * q + 4) = need (4 * q + 0) + 3 := need_add_four (4 * q)
      _ = 3 * q + 3 := by rw [need_four_mul_add q (by decide), Nat.add_zero]

end Sys2Proof.Proofs
end

section
/-! PROOFS. The statements of 10_state.md: envelopes (sections 3 and 4, R24, R27, R28) and what a response depends on
(R20). -/

namespace Sys2Proof.Machine

/-! ## Lengths of packed and unpacked buffers -/

theorem length_packGroup (s : List Byte) (g : Nat) :
    (packGroup s g).length = min (min 4 (s.length - 4 * g)) 3 := by
  simp [packGroup, uEnc]

theorem length_unpackGroup (s : List Byte) (n g : Nat) : (unpackGroup s n g).length = min 4 (n - 4 * g) := by
  simp [unpackGroup, Nat.min_comm]

/-- The first `k` groups hold the packed bytes of the characters they cover. -/
theorem length_flatMap_packGroup (s : List Byte) (k : Nat) :
    ((List.range k).flatMap (packGroup s)).length = need (min s.length (4 * k)) := by
  induction k with
  | zero => simp [need]
  | succ k ih =>
    simp only [List.range_succ, List.flatMap_append, List.flatMap_singleton, List.length_append, ih, length_packGroup]
    unfold need
    omega

theorem length_flatMap_unpackGroup (s : List Byte) (n k : Nat) :
    ((List.range k).flatMap (unpackGroup s n)).length = min n (4 * k) := by
  induction k with
  | zero => simp
  | succ k ih =>
    simp only [List.range_succ, List.flatMap_append, List.flatMap_singleton, List.length_append, ih,
      length_unpackGroup]
    omega

/-- The groups of an `n`-character buffer cover all its characters. -/
theorem min_four_mul_groupCount (n : Nat) : min n (4 * groupCount n) = n := by
  unfold groupCount; omega

/-- PACK gives `need(n)` bytes (20_memory.md R43). -/
@[simp] theorem length_pack (s : List Byte) : (pack s).length = need s.length := by
  rw [pack, length_flatMap_packGroup, min_four_mul_groupCount]

/-- UNPACK gives `n` characters whatever `SRC` holds. -/
@[simp] theorem length_unpack (s : List Byte) (n : Nat) : (unpack s n).length = n := by
  rw [unpack, List.length_map, unpackLanes, length_flatMap_unpackGroup, min_four_mul_groupCount]

/-! ## The envelope invariant (10_state.md R27) -/

/-- The envelope invariant in the words of R27: the packed bytes alone, or the packed bytes and the marker. -/
theorem envelopeOk_iff (st : Straps) (b : List Byte) (n : Nat) :
    envelopeOk st { envBytes := b, envLen := n } = true ↔
      b.length = need n ∨ (b.length = need n + 1 ∧ n % 4 = 0 ∧ b.getLast? = some st.marker) := by
  simp only [envelopeOk, Bool.or_eq_true, Bool.and_eq_true, decide_eq_true_eq, and_assoc]
  rw [memRead, List.getLast?_eq_getElem?]

theorem uMdet_eq_true_iff (n : Nat) (last : Byte) :
    uMdet n last = true ↔ 0 < n ∧ n % 4 = 0 ∧ lowSixZero last = true := by
  simp [uMdet, and_assoc]

theorem getLast?_eq_some_lastByte {b : List Byte} (h : b ≠ []) : b.getLast? = some (lastByte b) := by
  rw [lastByte_eq_getLastD, List.getLastD_eq_getLast?, List.getLast?_eq_some_getLast h, Option.getD_some]

/-- The bytes ENVB builds are an envelope of the text's length: U_MDET asks for the marker only at lengths 0 mod 4. -/
theorem envelopeOk_envb (st : Straps) (s : List Byte) (last : Byte) :
    envelopeOk st
      { envBytes := if uMdet s.length last then pack s ++ [st.marker] else pack s, envLen := s.length } = true := by
  rw [envelopeOk_iff]
  split
  · next hmark =>
    obtain ⟨-, hmod, -⟩ := (uMdet_eq_true_iff _ _).1 hmark
    exact .inr ⟨by simp, hmod, by simp⟩
  · exact .inl (length_pack s)

/-- Any bytes are an envelope of the length U_LREC recovers from them (43_envelope.md R162). -/
theorem envelopeOk_uLrec (st : Straps) (b : List Byte) :
    envelopeOk st { envBytes := b, envLen := (uLrec st b.length (lastByte b)).length } = true := by
  rw [envelopeOk_iff]
  unfold uLrec
  dsimp only
  split
  · refine .inl ?_
    split <;> simp only [need] <;> omega
  · split
    · next hrem =>
      split
      · next hmarker =>
        have hne : b ≠ [] := by
          rintro rfl
          simp at hrem
        refine .inr ⟨by simp only [need]; omega, by simp, ?_⟩
        rw [getLast?_eq_some_lastByte hne, hmarker]
      · exact .inl (by simp only [need]; omega)
    · exact .inl (by simp only [need]; omega)

/-- What ENVB answers with `DST` and `OLEN` is an envelope. -/
theorem envelopeOk_of_exec_envb {s t : State} {b : List Byte} {n : Nat} (h : exec .envb s = .next t)
    (hb : t.resp.dst = some b) (hn : t.resp.olen = some n) :
    envelopeOk s.straps { envBytes := b, envLen := n } = true := by
  simp only [exec, execEnvb] at h
  split at h
  · cases h; cases hb
  · split at h
    · cases h; cases hb
    · obtain rfl := Host.Outcome.next.inj h
      obtain rfl := Option.some.inj hb
      obtain rfl := Option.some.inj hn
      rw [fillBuffer_eq]
      exact envelopeOk_envb s.straps s.src _

/-- What ENVP answers with `DST` and `OLEN` is an envelope. -/
theorem envelopeOk_of_exec_envp {s t : State} {b : List Byte} {n : Nat} (h : exec .envp s = .next t)
    (hb : t.resp.dst = some b) (hn : t.resp.olen = some n) :
    envelopeOk s.straps { envBytes := b, envLen := n } = true := by
  simp only [exec, execEnvp, uLrec_malf] at h
  split at h
  · cases h; cases hb
  · split at h
    · cases h; cases hb
    · obtain rfl := Host.Outcome.next.inj h
      obtain rfl := Option.some.inj hb
      obtain rfl := Option.some.inj hn
      rw [fillBuffer_eq]
      exact envelopeOk_uLrec s.straps s.src

/-- A decoder's text is delivered as `DST`, with its length as `OLEN`. -/
theorem returnText_eq_answered (t : List Byte) (n : Nat) (s : State) :
    returnText t n s = answered s (bufferResponse t n) := by
  rw [returnText, fillBuffer_eq]
  rfl

/-- ENVR renders an envelope within `MAX_LEN`: a text of its length, with no fault and no error (43_envelope.md R166). -/
theorem exec_envr_of_envelopeOk {s : State} (hcap : overCapacity s.straps s.len = false)
    (henv : envelopeOk s.straps { envBytes := s.src, envLen := s.len } = true) :
    ∃ d, exec .envr s = .next (answered s (bufferResponse d s.len)) ∧ d.length = s.len := by
  simp only [exec, execEnvr, hcap, returnText_eq_answered, Bool.false_eq_true, if_false]
  by_cases hplain : s.src.length = need s.len
  · exact ⟨_, if_pos hplain, length_unpack _ _⟩
  · obtain ⟨hlen, hmod, hlast⟩ := ((envelopeOk_iff _ _ _).1 henv).resolve_left hplain
    rw [List.getLast?_eq_getElem?] at hlast
    exact ⟨_, by rw [if_neg hplain, if_pos ⟨hlen, hmod, hlast⟩], length_unpack _ _⟩

/-! ## What a move changes -/

/-- The block's move changes nothing or delivers a response. -/
theorem blockMove_next_eq_or_respond {s t : State} (h : blockMove s = .next t) : t = s ∨ ∃ r, t = respond r s := by
  rcases blockMove_cases s with ⟨-, hidle⟩ | ⟨w, e, -, -, hreserved⟩ | ⟨w, i, -, -, hrun⟩
  · rw [hidle] at h
    exact .inl (Host.Outcome.next.inj h).symm
  · rw [hreserved] at h
    exact .inr ⟨_, (Host.Outcome.next.inj h).symm⟩
  · rw [hrun] at h
    exact .inr (exec_next_is_respond h)

/-- `t` has the parameters of `s`, and its kept envelopes, or these and the one the response ports of `s` carry. -/
def KeepsParametersAndEnvelopes (s t : State) : Prop :=
  t.straps = s.straps ∧
  (t.envelopes = s.envelopes ∨
    ∃ b n f, s.resp.dst = some b ∧ s.resp.olen = some n ∧ s.resp.flag = some f ∧
      t.envelopes = s.envelopes ++ [{ envBytes := b, envLen := n }])

theorem blockMove_keepsParametersAndEnvelopes {s t : State} (h : blockMove s = .next t) :
    KeepsParametersAndEnvelopes s t := by
  rcases blockMove_next_eq_or_respond h with rfl | ⟨r, rfl⟩
  · exact ⟨rfl, .inl rfl⟩
  · exact ⟨respond_straps r s, .inl (respond_envelopes r s)⟩

/-- Of the host's acts only keeping an envelope touches the kept ones. -/
theorem hostMove_keepsParametersAndEnvelopes {a : HostAct} {s t : State} (h : hostMove a s = .next t) :
    KeepsParametersAndEnvelopes s t := by
  rcases hostMove_cases h with ⟨c, -, -, rfl⟩ | ⟨p, -, rfl⟩ | ⟨b, n, f, -, hb, hn, hf, rfl⟩ | ⟨b, -, -, rfl⟩ | ⟨-, rfl⟩
  · exact ⟨rfl, .inl rfl⟩
  · exact ⟨rfl, .inl rfl⟩
  · exact ⟨rfl, .inr ⟨b, n, f, hb, hn, hf, rfl⟩⟩
  · exact ⟨rfl, .inl rfl⟩
  · exact ⟨hostReset_straps s, .inl (hostReset_envelopes s)⟩

/-! ## What a response depends on (10_state.md R20) -/

/-- Two outcomes of one command, on `s` and on `s'`: the same response or the same fault. -/
inductive SameAnswer (s s' : State) : Result → Result → Prop where
  | response (r : Response) : SameAnswer s s' (.next (respond r s)) (.next (respond r s'))
  | fault (f : Fault) : SameAnswer s s' (.fault f) (.fault f)

namespace SameAnswer

variable {s s' : State} {o o' : Result}

/-- A state answered with a response determines the response. -/
theorem next_respond_iff (s : State) (r r' : Response) :
    (Host.Outcome.next (respond r s) : Result) = .next (answered s r') ↔ r = r' :=
  ⟨fun h => congrArg State.resp (Host.Outcome.next.inj h), fun h => h ▸ rfl⟩

theorem next_iff (h : SameAnswer s s' o o') (r : Response) :
    o = .next (answered s r) ↔ o' = .next (answered s' r) := by
  cases h with
  | response r' => rw [next_respond_iff, next_respond_iff]
  | fault f => exact ⟨nofun, nofun⟩

theorem fault_iff (h : SameAnswer s s' o o') (f : Fault) : o = .fault f ↔ o' = .fault f := by
  cases h with
  | response r => exact ⟨nofun, nofun⟩
  | fault g => exact Iff.rfl

/-- A check made alike on both sides. -/
theorem ite {p : Prop} [Decidable p] {o₁ o₁' : Result} (h₁ : SameAnswer s s' o₁ o₁') (h : SameAnswer s s' o o') :
    SameAnswer s s' (if p then o₁ else o) (if p then o₁' else o') := by
  split
  · exact h₁
  · exact h

end SameAnswer

/-- Every command answers alike on states that agree on the parameters and on the ports it reads. -/
theorem exec_sameAnswer (i : Instr) {s s' : State} (hst : s.straps = s'.straps)
    (hlen : readsLen i = true → s.len = s'.len) (hsrc : readsSrc i = true → s.src = s'.src) :
    SameAnswer s s' (exec i s) (exec i s') := by
  cases i with
  | enc =>
    simp only [exec, execEnc, hst, hsrc rfl]
    refine .ite (.response _) ?_
    split
    · exact .response _
    · exact .response _
  | encu =>
    simp only [exec, execEncu, hst, hsrc rfl]
    refine .ite (.response _) ?_
    split
    · exact .fault _
    · exact .response _
  | dec =>
    simp only [exec, execDec, hst, hlen rfl, hsrc rfl]
    exact .ite (.response _) (.ite (.response _) (.response _))
  | decu =>
    simp only [exec, execDecu, hst, hlen rfl, hsrc rfl]
    exact .ite (.response _) (.ite (.response _) (.ite (.fault _) (.response _)))
  | decs =>
    simp only [exec, execDecs, hst, hlen rfl, hsrc rfl]
    exact .ite (.response _) (.ite (.response _) (.ite (.response _) (.response _)))
  | envb =>
    simp only [exec, execEnvb, hst, hsrc rfl]
    refine .ite (.response _) ?_
    split
    · exact .response _
    · exact .response _
  | envp =>
    simp only [exec, execEnvp, hst, hsrc rfl]
    exact .ite (.response _) (.ite (.response _) (.response _))
  | envr =>
    simp only [exec, execEnvr, hst, hlen rfl, hsrc rfl]
    exact .ite (.response _) (.ite (.response _) (.ite (.response _) (.fault _)))
  | genc km1 vin => exact .response _
  | gdec km1 yin => exact .response _
  | mdet last =>
    simp only [exec, execMdet, hlen rfl]
    exact .response _
  | lrec last =>
    simp only [exec, execLrec, hst, hlen rfl]
    exact .ite (.response _) (.ite (.response _) (.response _))

end Sys2Proof.Machine

namespace Sys2Proof.Proofs

open Sys2Proof Sys2Proof.Machine

/-- Settles O35: what either constructor answers meets the envelope invariant, and a byte count cannot be both `need(n)`
and `need(n) + 1`. -/
theorem constructorsMeetTheEnvelopeInvariant : Obligations.ConstructorsMeetTheEnvelopeInvariant := by
  intro i s t b n hi h hb hn
  have henv : envelopeOk s.straps { envBytes := b, envLen := n } = true := by
    rcases hi with rfl | rfl
    · exact envelopeOk_of_exec_envb h hb hn
    · exact envelopeOk_of_exec_envp h hb hn
  refine ⟨(envelopeOk_iff _ _ _).1 henv, ?_⟩
  rintro ⟨hplain, hmarked, -, -⟩
  omega

/-- Settles O46: the two outcomes are the same answer, check by check. -/
theorem responsesDependOnlyOnPortsRead : Obligations.ResponsesDependOnlyOnPortsRead := by
  intro i s s' hst hlen hsrc
  have hsame := exec_sameAnswer i hst hlen hsrc
  exact ⟨hsame.next_iff, hsame.fault_iff⟩

/-- Settles O51: a step is an act of the host, which can keep one envelope, or the block's move, which keeps none. -/
theorem parametersAndKeptEnvelopesNeverChange : Obligations.ParametersAndKeptEnvelopesNeverChange := by
  intro s t h
  rcases step_cases s with ⟨a, rest, -, -, hhost⟩ | ⟨-, hblock⟩
  · rw [hhost] at h
    exact hostMove_keepsParametersAndEnvelopes (s := { s with host := rest }) h
  · rw [hblock] at h
    exact blockMove_keepsParametersAndEnvelopes h

/-- Settles O54: the invariant gives a kept envelope both premises under which ENVR renders it. -/
theorem keptEnvelopesRender : Obligations.KeptEnvelopesRender := by
  rintro s e ⟨-, -, -, hkept⟩ he
  obtain ⟨henv, hcap⟩ := hkept e he
  exact exec_envr_of_envelopeOk (s := { s with src := e.envBytes, len := e.envLen }) hcap henv

end Sys2Proof.Proofs
end

section
/-! PROOFS. The statements of 20_memory.md: commands are answered in the order of issue, each as if alone after reset
(section 5, R50). -/

namespace Sys2Proof.Machine

/-! ## Issuing a command (10_state.md R22) -/

/-- `s` with the command `c` on the command port and the host's acts `rest` still to be done. -/
def presented (c : Command) (rest : List HostAct) (s : State) : State :=
  { s with cw := some c.cw, len := c.len, src := c.src, host := rest }

/-- An idle block is given the next command at once, if its `LEN` fits the port. -/
theorem step_of_issue {s : State} {c : Command} {rest : List HostAct} (hcw : s.cw = none)
    (hhost : s.host = .issue c :: rest) :
    step s = if c.wf s.straps then .next (presented c rest s) else .refused .lenNotRepresentable := by
  have hnext : nextHostAct s = some (.issue c) := by simp [nextHostAct, hhost, hcw]
  rw [step, systemMove, hnext, hhost]
  rfl

/-- A step that issues a command presents it, and its `LEN` fits the port. -/
theorem step_of_issue_eq_next_iff {s m : State} {c : Command} {rest : List HostAct} (hcw : s.cw = none)
    (hhost : s.host = .issue c :: rest) :
    step s = .next m ↔ c.wf s.straps = true ∧ m = presented c rest s := by
  rw [step_of_issue hcw hhost]
  split
  · next hwf => simp [hwf, eq_comm]
  · next hwf => simp [hwf]

/-! ## Runs by their first steps -/

theorem run_succ_eq_next_iff {k : Nat} {s t : State} :
    core.run (k + 1) s = .next t ↔ ∃ m : State, step s = .next m ∧ core.run k m = .next t := by
  cases h : step s with
  | next m => simp [run_succ_of_next h]
  | fault f => simp [run_succ_of_fault h]
  | refused r => simp [run_succ_of_refused h]

theorem run_add_eq_next_iff {j k : Nat} {s t : State} :
    core.run (j + k) s = .next t ↔ ∃ m : State, core.run j s = .next m ∧ core.run k m = .next t := by
  induction j generalizing s with
  | zero =>
    rw [Nat.zero_add]
    exact ⟨fun h => ⟨s, rfl, h⟩, fun ⟨m, hm, h⟩ => Host.Outcome.next.inj hm ▸ h⟩
  | succ j ih =>
    rw [Nat.succ_add_eq_add_succ, Nat.add_succ]
    simp only [run_succ_eq_next_iff, ih]
    constructor
    · rintro ⟨a, ha, m, hm, ht⟩
      exact ⟨m, ⟨a, ha, hm⟩, ht⟩
    · rintro ⟨m, ⟨a, ha, hm⟩, ht⟩
      exact ⟨a, ha, m, hm, ht⟩

/-- Two steps from an idle state with a command to issue: the command is presented, then the block moves on it. -/
theorem run_two_of_issue_eq_next_iff {s t : State} {c : Command} {rest : List HostAct} (hcw : s.cw = none)
    (hhost : s.host = .issue c :: rest) (hwaits : ∀ a, rest.head? = some a → a.waits = true) :
    core.run 2 s = .next t ↔ c.wf s.straps = true ∧ blockMove (presented c rest s) = .next t := by
  have hblock : step (presented c rest s) = blockMove (presented c rest s) := step_eq_blockMove_of_waits rfl hwaits
  rw [run_succ_eq_next_iff]
  simp only [step_of_issue_eq_next_iff hcw hhost, and_assoc, exists_and_left, exists_eq_left, run_one, hblock]
  exact Iff.rfl

/-! ## The block answers alike on like ports (10_state.md R20) -/

/-- An answer on `s` is a response, and the other side gives the same one. -/
theorem SameAnswer.exists_respond_of_next {s s' t : State} {o : Result} (h : SameAnswer s s' (.next t) o) :
    ∃ r, t = respond r s ∧ o = .next (respond r s') := by
  cases h with
  | response r => exact ⟨r, rfl, rfl⟩

/-- On the same command, presented under the same parameters, the block gives the same answer. -/
theorem blockMove_presented_sameAnswer (c : Command) (rest rest' : List HostAct) {s s' : State}
    (hst : s.straps = s'.straps) :
    SameAnswer (presented c rest s) (presented c rest' s') (blockMove (presented c rest s))
      (blockMove (presented c rest' s')) := by
  cases hd : decode c.cw with
  | ok i =>
    rw [blockMove_of_decode_ok rfl hd, blockMove_of_decode_ok rfl hd]
    exact exec_sameAnswer i hst (fun _ => rfl) (fun _ => rfl)
  | error e =>
    simp only [blockMove, presented, hd]
    exact .response _

/-! ## A list of commands, one after another (20_memory.md R50) -/

/-- A host that only issues commands waits for each response. -/
theorem waits_of_head?_map_issue {cs : List Command} {a : HostAct}
    (h : (cs.map HostAct.issue).head? = some a) : a.waits = true := by
  cases cs with
  | nil => cases h
  | cons c cs => obtain rfl := Option.some.inj h; rfl

/-- If the first command of a list is answered, its response is the one it gives from any idle state with the same
parameters and no further command. -/
theorem first_command_answered_as_alone {s t : State} {c : Command} {cs : List Command} (hcw : s.cw = none)
    (hhost : s.host = (c :: cs).map HostAct.issue) (hrun : core.run 2 s = .next t) :
    ∃ r, t = respond r (presented c (cs.map HostAct.issue) s) ∧
      ∀ s' : State, s'.cw = none → s'.host = [.issue c] → s'.straps = s.straps →
        core.run 2 s' = .next (respond r (presented c [] s')) := by
  obtain ⟨hwf, hblock⟩ := (run_two_of_issue_eq_next_iff hcw hhost fun _ => waits_of_head?_map_issue).1 hrun
  have hsame {s' : State} (hst : s'.straps = s.straps) :
      SameAnswer (presented c (cs.map HostAct.issue) s) (presented c [] s') (.next t)
        (blockMove (presented c [] s')) :=
    hblock ▸ blockMove_presented_sameAnswer c (cs.map HostAct.issue) [] hst.symm
  obtain ⟨r, rfl, -⟩ := (hsame rfl).exists_respond_of_next
  refine ⟨r, rfl, fun s' hcw' hhost' hst => ?_⟩
  rw [run_two_of_issue_eq_next_iff hcw' hhost' nofun, hst]
  exact ⟨hwf, ((hsame hst).next_iff r).1 rfl⟩

end Sys2Proof.Machine

namespace Sys2Proof.Proofs

open Sys2Proof Sys2Proof.Machine

/-- Settles O47, by induction on `k`: two steps answer the first command, as it is answered alone, and leave the block
idle under the same parameters with the rest of the list to issue. -/
theorem commandsAreAnsweredInOrderAsIfAlone : Obligations.CommandsAreAnsweredInOrderAsIfAlone := by
  intro s t cs k c hcw hhost hk hrun
  induction k generalizing s cs with
  | zero =>
    cases cs with
    | nil => cases hk
    | cons c₀ cs =>
      obtain rfl := Option.some.inj hk
      obtain ⟨r, rfl, halone⟩ := first_command_answered_as_alone hcw hhost hrun
      exact ⟨rfl, rfl, _, halone _ rfl rfl rfl, rfl⟩
  | succ k ih =>
    cases cs with
    | nil => cases hk
    | cons c₀ cs =>
      rw [Nat.mul_succ, Nat.add_comm, run_add_eq_next_iff] at hrun
      obtain ⟨m, hfirst, hrest⟩ := hrun
      obtain ⟨r, rfl, -⟩ := first_command_answered_as_alone hcw hhost hfirst
      exact ih (respond r (presented c₀ (cs.map HostAct.issue) s)) cs rfl rfl hk hrest

end Sys2Proof.Proofs
end

section
/-! PROOFS. The statements of 30_encoding.md: the command word's fields, decoder and encoder (sections 1 and 6, R60 to
R62), a reserved `OP` at the step (R62, R207), and the character map (R68, R69). -/

namespace Sys2Proof

/-! ## The command word as its fields (30_encoding.md R60) -/

/-- Words put together from parts of the same widths are equal exactly when the parts are. -/
theorem append_eq_append_iff {m n : Nat} {x₁ x₂ : BitVec m} {y₁ y₂ : BitVec n} :
    x₁ ++ y₁ = x₂ ++ y₂ ↔ x₁ = x₂ ∧ y₁ = y₂ := by
  constructor
  · intro h
    have hlow : y₁ = y₂ := by
      simpa only [BitVec.setWidth_append_eq_right] using congrArg (BitVec.setWidth n) h
    subst hlow
    exact ⟨(BitVec.append_left_inj y₁).1 h, rfl⟩
  · rintro ⟨rfl, rfl⟩
    rfl

theorem eq_append_opField (w : CmdWord) : w = w.extractLsb' 4 28 ++ opField w :=
  BitVec.extractLsb'_eq_self.symm.trans
    (BitVec.extractLsb'_append_extractLsb'_eq_extractLsb' (start₁ := 0) (len₁ := 4) rfl).symm

theorem eq_append_groupFields (w : CmdWord) :
    w = data24Field w ++ w.extractLsb' 6 2 ++ km1Field w ++ opField w := by
  rw [data24Field, km1Field,
    BitVec.extractLsb'_append_extractLsb'_eq_extractLsb' (start₁ := 6) (len₁ := 2) rfl,
    BitVec.extractLsb'_append_extractLsb'_eq_extractLsb' (start₁ := 4) (len₁ := 2) rfl]
  exact eq_append_opField w

theorem eq_append_lastField (w : CmdWord) :
    w = w.extractLsb' 16 16 ++ lastField w ++ w.extractLsb' 4 4 ++ opField w := by
  rw [lastField,
    BitVec.extractLsb'_append_extractLsb'_eq_extractLsb' (start₁ := 8) (len₁ := 8) rfl,
    BitVec.extractLsb'_append_extractLsb'_eq_extractLsb' (start₁ := 4) (len₁ := 4) rfl]
  exact eq_append_opField w

/-- The mask of a command with no field but `OP`. -/
theorem and_opMask (w : CmdWord) : w &&& 0x0000000F = 0#28 ++ opField w := by
  calc w &&& 0x0000000F
      = (w.extractLsb' 4 28 ++ opField w) &&& (0#28 ++ BitVec.allOnes 4) :=
        congrArg₂ (· &&& ·) (eq_append_opField w) (by decide)
    _ = 0#28 ++ opField w := by rw [BitVec.and_append, BitVec.and_zero, BitVec.and_allOnes]

/-- The mask of the commands on one group. -/
theorem and_groupMask (w : CmdWord) :
    w &&& 0xFFFFFF3F = data24Field w ++ 0#2 ++ km1Field w ++ opField w := by
  calc w &&& 0xFFFFFF3F
      = (data24Field w ++ w.extractLsb' 6 2 ++ km1Field w ++ opField w) &&&
          (BitVec.allOnes 24 ++ 0#2 ++ BitVec.allOnes 2 ++ BitVec.allOnes 4) :=
        congrArg₂ (· &&& ·) (eq_append_groupFields w) (by decide)
    _ = data24Field w ++ 0#2 ++ km1Field w ++ opField w := by
      simp only [BitVec.and_append, BitVec.and_zero, BitVec.and_allOnes]

/-- The mask of the marker detectors. -/
theorem and_lastMask (w : CmdWord) : w &&& 0x0000FF0F = 0#16 ++ lastField w ++ 0#4 ++ opField w := by
  calc w &&& 0x0000FF0F
      = (w.extractLsb' 16 16 ++ lastField w ++ w.extractLsb' 4 4 ++ opField w) &&&
          (0#16 ++ BitVec.allOnes 8 ++ 0#4 ++ BitVec.allOnes 4) :=
        congrArg₂ (· &&& ·) (eq_append_lastField w) (by decide)
    _ = 0#16 ++ lastField w ++ 0#4 ++ opField w := by
      simp only [BitVec.and_append, BitVec.and_zero, BitVec.and_allOnes]

theorem and_opMask_eq_iff (w : CmdWord) (op : BitVec 4) :
    w &&& 0x0000000F = 0#28 ++ op ↔ opField w = op := by
  rw [and_opMask]
  exact BitVec.append_right_inj _

theorem and_groupMask_eq_iff (w : CmdWord) (data : Group) (km1 : BitVec 2) (op : BitVec 4) :
    w &&& 0xFFFFFF3F = data ++ 0#2 ++ km1 ++ op ↔
      opField w = op ∧ data24Field w = data ∧ km1Field w = km1 := by
  rw [and_groupMask]
  refine append_eq_append_iff.trans ?_
  simp only [append_eq_append_iff, and_true]
  exact and_comm

theorem and_lastMask_eq_iff (w : CmdWord) (last : Byte) (op : BitVec 4) :
    w &&& 0x0000FF0F = 0#16 ++ last ++ 0#4 ++ op ↔ opField w = op ∧ lastField w = last := by
  rw [and_lastMask]
  refine append_eq_append_iff.trans ?_
  simp only [append_eq_append_iff, true_and, and_true]
  exact and_comm

/-! ## The fields a command uses (30_encoding.md R61) -/

/-- The operands of the command are the word's fields that carry them. -/
def Instr.OperandsIn (w : CmdWord) : Instr → Prop
  | .genc km1 vin => data24Field w = vin ∧ km1Field w = km1
  | .gdec km1 yin => data24Field w = yin ∧ km1Field w = km1
  | .mdet last => lastField w = last
  | .lrec last => lastField w = last
  | .enc | .encu | .dec | .decu | .decs | .envb | .envp | .envr => True

theorem Instr.op_lt_twelve (i : Instr) : i.op.toNat < 12 := by
  cases i <;> exact of_decide_eq_true rfl

/-- A word decodes to a command exactly when its `OP` and its operand fields are the command's. -/
theorem decode_eq_ok_iff (w : CmdWord) (i : Instr) : decode w = .ok i ↔ opField w = i.op ∧ i.OperandsIn w := by
  constructor
  · intro h
    unfold decode at h
    split at h <;> cases h
    -- each remaining case has its `OP` value among the hypotheses
    all_goals exact ⟨BitVec.eq_of_toNat_eq ‹_›, by simp [Instr.OperandsIn]⟩
  · rintro ⟨hop, hoperands⟩
    unfold decode
    rw [hop]
    cases i with
    | genc | gdec =>
      obtain ⟨rfl, rfl⟩ := hoperands
      rfl
    | mdet | lrec =>
      obtain rfl := hoperands
      rfl
    | enc | encu | dec | decu | decs | envb | envp | envr => rfl

/-- The used bits of a word are a command's encoding exactly when its `OP` and its operand fields are the command's. -/
theorem and_usedBits_eq_encode_iff (w : CmdWord) (i : Instr) :
    w &&& i.usedBits = encode i ↔ opField w = i.op ∧ i.OperandsIn w := by
  cases i with
  | genc km1 vin | gdec km1 vin => exact and_groupMask_eq_iff w vin km1 _
  | mdet last | lrec last => exact and_lastMask_eq_iff w last _
  | enc | encu | dec | decu | decs | envb | envp | envr =>
    exact (and_opMask_eq_iff w _).trans (and_iff_left trivial).symm

/-- The model's law of the `OP` field, for every command at once. -/
theorem opcodeField_statement (i : Instr) : Laws.OpcodeField.Statement i := by
  cases i with
  | enc => exact Laws.OpcodeField.enc
  | encu => exact Laws.OpcodeField.encu
  | dec => exact Laws.OpcodeField.dec
  | decu => exact Laws.OpcodeField.decu
  | decs => exact Laws.OpcodeField.decs
  | envb => exact Laws.OpcodeField.envb
  | envp => exact Laws.OpcodeField.envp
  | envr => exact Laws.OpcodeField.envr
  | genc km1 vin => exact Laws.OpcodeField.genc km1 vin
  | gdec km1 yin => exact Laws.OpcodeField.gdec km1 yin
  | mdet last => exact Laws.OpcodeField.mdet last
  | lrec last => exact Laws.OpcodeField.lrec last

/-- An encoding has no bit set that the command does not use. -/
theorem encode_and_usedBits (i : Instr) : encode i &&& i.usedBits = encode i := by
  obtain ⟨-, hunused⟩ := opcodeField_statement i
  calc encode i &&& i.usedBits
      = (encode i &&& i.usedBits) ||| (encode i &&& ~~~ i.usedBits) := by rw [hunused]; exact BitVec.or_zero.symm
    _ = encode i := by rw [← BitVec.and_or_distrib_left, BitVec.or_not_self, BitVec.and_allOnes]

/-! ## Reserved `OP` values (30_encoding.md R62) -/

/-- The refusal names the `OP`, which is none of the twelve commands'. -/
theorem reservedOp_of_decode_eq_error {w : CmdWord} {e : DecodeError} (h : decode w = .error e) :
    12 ≤ (opField w).toNat ∧ e = .reservedOp (opField w) := by
  unfold decode at h
  split at h <;> cases h
  refine ⟨?_, rfl⟩
  simp only [imp_false] at *
  omega

theorem decode_eq_error_of_twelve_le {w : CmdWord} (h : 12 ≤ (opField w).toNat) :
    decode w = .error (.reservedOp (opField w)) := by
  cases hd : decode w with
  | ok i =>
    obtain ⟨hop, -⟩ := (decode_eq_ok_iff w i).1 hd
    have := i.op_lt_twelve
    rw [hop] at h
    omega
  | error e => rw [(reservedOp_of_decode_eq_error hd).2]

end Sys2Proof

namespace Sys2Proof.Machine

/-- A word the decoder refuses is answered with ILLEGAL_OP, STATUS 5, and no other port. -/
theorem blockMove_of_decode_error {s : State} {w : CmdWord} {e : DecodeError} (hcw : s.cw = some w)
    (hd : decode w = .error e) : blockMove s = .next (answered s (errorResponse 5)) := by
  simp only [blockMove, hcw, hd]
  rfl

/-! ## The character map (30_encoding.md R68, R69) -/

/-- On a valid code the mapper's subtraction does not borrow. -/
theorem toNat_uCin_v {x : Byte} (hx : validChar x) : (uCin x).v.toNat = x.toNat - 32 := by
  obtain ⟨hlow, hhigh⟩ := hx
  have hsub : (x - 0x20#8).toNat = x.toNat - 32 := BitVec.toNat_sub_of_le hlow
  rw [uCin, BitVec.toNat_setWidth, hsub]
  omega

/-- A 6-bit value plus 32 fits a byte. -/
theorem toNat_uCout (v : Sixbit) : (uCout v).toNat = v.toNat + 32 := by
  have := v.isLt
  simp only [uCout, BitVec.toNat_add, BitVec.toNat_setWidth, BitVec.toNat_ofNat]
  omega

theorem validChar_uCout (v : Sixbit) : validChar (uCout v) := by
  have := v.isLt
  rw [validChar, toNat_uCout]
  omega

theorem uCout_uCin {x : Byte} (hx : validChar x) : uCout (uCin x).v = x := by
  apply BitVec.eq_of_toNat_eq
  rw [toNat_uCout, toNat_uCin_v hx, Nat.sub_add_cancel hx.1]

theorem uCin_uCout (v : Sixbit) : (uCin (uCout v)).v = v := by
  apply BitVec.eq_of_toNat_eq
  rw [toNat_uCin_v (validChar_uCout v), toNat_uCout, Nat.add_sub_cancel]

/-- Subtracting 32 from 6 bits flips the top one. -/
theorem sub_32_eq_xor : ∀ v : Sixbit, v - 32#6 = v ^^^ 0b100000#6 := by decide

/-- The bit form of R69 for the value of a code. -/
theorem uCin_v_eq_xor (x : Byte) : (uCin x).v = x.extractLsb' 0 6 ^^^ 0b100000#6 := by
  rw [← sub_32_eq_xor, ← BitVec.setWidth_eq_extractLsb' (by decide)]
  apply BitVec.eq_of_toNat_eq
  simp only [uCin, BitVec.toNat_setWidth, BitVec.toNat_sub, BitVec.toNat_ofNat]
  omega

/-- The bit form of R69 for the code of a value. -/
theorem uCout_eq_append : ∀ v : Sixbit,
    uCout v = 0b0#1 ++ v.extractLsb' 5 1 ++ (~~~ v.extractLsb' 5 1) ++ v.extractLsb' 0 5 := by decide

end Sys2Proof.Machine

namespace Sys2Proof.Proofs

open Sys2Proof Sys2Proof.Machine

/-- Settles O2: both sides say that `OP` and the operand fields are the command's. -/
theorem decodeReadsExactlyTheUsedFields : Obligations.DecodeReadsExactlyTheUsedFields := fun w i =>
  (decode_eq_ok_iff w i).trans (and_usedBits_eq_encode_iff w i).symm

/-- Settles O1, from O2: an encoding is its own used bits. -/
theorem decodeEncodeRoundTrip : Obligations.DecodeEncodeRoundTrip := fun i _ =>
  (decodeReadsExactlyTheUsedFields (encode i) i).2 (encode_and_usedBits i)

/-- Settles O3: a word that decodes to a command has that command's `OP`, below 12. -/
theorem reservedOpIsRefusedByName : Obligations.ReservedOpIsRefusedByName := by
  intro w e
  refine ⟨reservedOp_of_decode_eq_error, ?_⟩
  rintro ⟨hop, rfl⟩
  exact decode_eq_error_of_twelve_le hop

/-- Settles O6: the waiting act leaves the move to the block, which refuses the word. -/
theorem reservedOpAnswersIllegalOp : Obligations.ReservedOpAnswersIllegalOp := by
  intro s w hcw hwaits hop
  calc step s = blockMove s := step_eq_blockMove_of_waits hcw hwaits
    _ = .next (answered s (errorResponse 5)) := blockMove_of_decode_error hcw (decode_eq_error_of_twelve_le hop)

/-- Settles O15: in both directions the arithmetic neither borrows nor carries, and so the maps undo each other. -/
theorem characterMapIsABijection : Obligations.CharacterMapIsABijection := by
  refine ⟨uCin_ok_iff, fun x hx => ?_, fun v => ?_⟩
  · exact ⟨toNat_uCin_v hx, uCin_v_eq_xor x, uCout_uCin hx⟩
  · exact ⟨toNat_uCout v, validChar_uCout v, uCin_uCout v, uCout_eq_append v⟩

end Sys2Proof.Proofs
end

section
/-! PROOFS. The statements of 41_encode.md: U_ENC in exact arithmetic (R102), GENC (R103, R109), PACK's bits (R106), and
ENC and ENCU in every case (R104, R105, R108). -/

namespace Sys2Proof.Machine

/-! ## U_ENC in exact arithmetic (41_encode.md R102) -/

/-- Lane `l` as U_ENC counts it for a group of `k` characters: zero at index `k` and above. -/
def keptLane (k l : Nat) (v : Sixbit) : Sixbit := if l < k then v else 0

theorem toNat_keptLane (k l : Nat) (v : Sixbit) : (keptLane k l v).toNat = if l < k then v.toNat else 0 := by
  rw [keptLane, apply_ite BitVec.toNat]
  rfl

theorem setWidth_keptLane (k l : Nat) (v : Sixbit) :
    (keptLane k l v).setWidth 8 = if l < k then v.setWidth 8 else (0 : Byte) := by
  rw [keptLane, apply_ite (BitVec.setWidth 8)]
  rfl

/-- U_ENC's formulas, with its zeroed lanes by name. -/
theorem uEnc_eq (a b c d : Sixbit) (k : Nat) :
    uEnc a b c d k =
      { y0 := (a.setWidth 8 <<< 2) ||| ((keptLane k 1 b).setWidth 8 >>> 4)
        y1 := (((keptLane k 1 b).setWidth 8 &&& 0xF) <<< 4) ||| ((keptLane k 2 c).setWidth 8 >>> 2)
        y2 := (((keptLane k 2 c).setWidth 8 &&& 0x3) <<< 6) ||| (keptLane k 3 d).setWidth 8
        m := min k 3 } := by
  simp only [setWidth_keptLane]
  rfl

/-- A shift that loses no bit, or'ed with a value below the shifted bits, is a sum. -/
theorem toNat_shiftLeft_or {x y : Byte} {i : Nat} (hx : 2 ^ i * x.toNat < 2 ^ 8) (hy : y.toNat < 2 ^ i) :
    (x <<< i ||| y).toNat = 2 ^ i * x.toNat + y.toNat := by
  rw [BitVec.toNat_or, BitVec.toNat_shiftLeft, Nat.shiftLeft_eq, Nat.mul_comm, Nat.mod_eq_of_lt hx,
    Nat.two_pow_add_eq_or_of_lt hy]

theorem toNat_lane (v : Sixbit) : (v.setWidth 8 : Byte).toNat = v.toNat :=
  BitVec.toNat_setWidth_of_le (by decide)

theorem toNat_lane_ushiftRight (v : Sixbit) (i : Nat) : ((v.setWidth 8 : Byte) >>> i).toNat = v.toNat / 2 ^ i := by
  rw [BitVec.toNat_ushiftRight, toNat_lane, Nat.shiftRight_eq_div_pow]

theorem toNat_lane_and_low (v : Sixbit) {i : Nat} (hi : i < 8) :
    ((v.setWidth 8 : Byte) &&& BitVec.ofNat 8 (2 ^ i - 1)).toNat = v.toNat % 2 ^ i := by
  have hmask : 2 ^ i - 1 < 2 ^ 8 := Nat.lt_of_le_of_lt (Nat.sub_le ..) (Nat.pow_lt_pow_right (by decide) hi)
  rw [BitVec.toNat_and, toNat_lane, BitVec.toNat_ofNat, Nat.mod_eq_of_lt hmask, Nat.and_two_pow_sub_one_eq_mod]

theorem toNat_uEnc_y0 (a b c d : Sixbit) (k : Nat) :
    (uEnc a b c d k).y0.toNat = 4 * a.toNat + (keptLane k 1 b).toNat / 16 := by
  have := a.isLt
  have := (keptLane k 1 b).isLt
  rw [uEnc_eq, toNat_shiftLeft_or (by rw [toNat_lane]; omega) (by rw [toNat_lane_ushiftRight]; omega), toNat_lane,
    toNat_lane_ushiftRight]
  rfl

theorem toNat_uEnc_y1 (a b c d : Sixbit) (k : Nat) :
    (uEnc a b c d k).y1.toNat = 16 * ((keptLane k 1 b).toNat % 16) + (keptLane k 2 c).toNat / 4 := by
  have := (keptLane k 2 c).isLt
  have hlow : ((keptLane k 1 b).setWidth 8 &&& (0xF : Byte)).toNat = (keptLane k 1 b).toNat % 16 :=
    toNat_lane_and_low _ (i := 4) (by decide)
  rw [uEnc_eq, toNat_shiftLeft_or (by rw [hlow]; omega) (by rw [toNat_lane_ushiftRight]; omega), hlow,
    toNat_lane_ushiftRight]
  rfl

theorem toNat_uEnc_y2 (a b c d : Sixbit) (k : Nat) :
    (uEnc a b c d k).y2.toNat = 64 * ((keptLane k 2 c).toNat % 4) + (keptLane k 3 d).toNat := by
  have := (keptLane k 3 d).isLt
  have hlow : ((keptLane k 2 c).setWidth 8 &&& (0x3 : Byte)).toNat = (keptLane k 2 c).toNat % 4 :=
    toNat_lane_and_low _ (i := 2) (by decide)
  rw [uEnc_eq, toNat_shiftLeft_or (by rw [hlow]; omega) (by rw [toNat_lane]; omega), hlow, toNat_lane]
  rfl

/-! ## U_ENC on a group (41_encode.md R103) -/

theorem toNat_append_eq_add {m n : Nat} (x : BitVec m) (y : BitVec n) :
    (x ++ y).toNat = 2 ^ n * x.toNat + y.toNat := by
  rw [BitVec.toNat_append, Nat.shiftLeft_eq, Nat.mul_comm, Nat.two_pow_add_eq_or_of_lt y.isLt]

/-- U_ENC moves the lanes of a group to its bytes without moving a bit, and zeroes the lanes at index `k` and above. -/
theorem groupOfBytes_uEnc (a b c d : Sixbit) (k : Nat) :
    groupOfBytes (uEnc a b c d k).y0 (uEnc a b c d k).y1 (uEnc a b c d k).y2 =
      groupOfLanes a (keptLane k 1 b) (keptLane k 2 c) (keptLane k 3 d) := by
  apply BitVec.eq_of_toNat_eq
  have := toNat_uEnc_y0 a b c d k
  have := toNat_uEnc_y1 a b c d k
  have := toNat_uEnc_y2 a b c d k
  simp only [groupOfBytes, groupOfLanes, toNat_append_eq_add]
  omega

theorem groupOfLanes_lanes (v : Group) : groupOfLanes (laneA v) (laneB v) (laneC v) (laneD v) = v := by
  rw [groupOfLanes, laneA, laneB, laneC, laneD,
    BitVec.extractLsb'_append_extractLsb'_eq_extractLsb' (start₁ := 12) (len₁ := 6) rfl,
    BitVec.extractLsb'_append_extractLsb'_eq_extractLsb' (start₁ := 6) (len₁ := 6) rfl,
    BitVec.extractLsb'_append_extractLsb'_eq_extractLsb' (start₁ := 0) (len₁ := 6) rfl]
  exact BitVec.extractLsb'_eq_self

theorem groupOfLanes_and_groupOfLanes (a b c d a' b' c' d' : Sixbit) :
    groupOfLanes a b c d &&& groupOfLanes a' b' c' d' =
      groupOfLanes (a &&& a') (b &&& b') (c &&& c') (d &&& d') := by
  refine BitVec.and_append.trans ?_
  rw [BitVec.and_append, BitVec.and_append]
  rfl

theorem keptLane_eq_and (k l : Nat) (v : Sixbit) : keptLane k l v = v &&& keptLane k l (BitVec.allOnes 6) := by
  unfold keptLane
  split
  · exact BitVec.and_allOnes.symm
  · exact BitVec.and_zero.symm

/-- The mask of a group size is whole lanes of ones. -/
theorem groupMask_eq_groupOfLanes : ∀ km1 : BitVec 2,
    groupMask km1 = groupOfLanes (BitVec.allOnes 6) (keptLane (groupSize km1) 1 (BitVec.allOnes 6))
      (keptLane (groupSize km1) 2 (BitVec.allOnes 6)) (keptLane (groupSize km1) 3 (BitVec.allOnes 6)) := by
  decide

/-- The mask keeps the lanes below the group size. -/
theorem and_groupMask_eq_groupOfLanes (km1 : BitVec 2) (v : Group) :
    v &&& groupMask km1 = groupOfLanes (laneA v) (keptLane (groupSize km1) 1 (laneB v))
      (keptLane (groupSize km1) 2 (laneC v)) (keptLane (groupSize km1) 3 (laneD v)) := by
  calc v &&& groupMask km1
      = groupOfLanes (laneA v) (laneB v) (laneC v) (laneD v) &&&
          groupOfLanes (BitVec.allOnes 6) (keptLane (groupSize km1) 1 (BitVec.allOnes 6))
            (keptLane (groupSize km1) 2 (BitVec.allOnes 6)) (keptLane (groupSize km1) 3 (BitVec.allOnes 6)) := by
        rw [groupOfLanes_lanes, groupMask_eq_groupOfLanes]
    _ = _ := by
        rw [groupOfLanes_and_groupOfLanes, BitVec.and_allOnes]
        simp only [← keptLane_eq_and]

theorem exec_genc (km1 : BitVec 2) (vin : Group) (s : State) :
    exec (.genc km1 vin) s = .next (answered s { Response.empty with
      status := some 0
      wout := some (vin &&& groupMask km1)
      m := some (BitVec.ofNat 2 (min (groupSize km1) 3)) }) := by
  rw [and_groupMask_eq_groupOfLanes, ← groupOfBytes_uEnc]
  rfl

/-! ## Bits in order (20_memory.md R44) -/

theorem getMsbD_eq_testBit {w : Nat} (x : BitVec w) {i : Nat} (hi : i < w) :
    x.getMsbD i = x.toNat.testBit (w - 1 - i) := by
  rw [BitVec.getMsbD_eq_getLsbD, BitVec.testBit_toNat, decide_eq_true hi, Bool.true_and]

theorem byteBit_append (b b' : List Byte) (t : Nat) :
    byteBit (b ++ b') t = if t < 8 * b.length then byteBit b t else byteBit b' (t - 8 * b.length) := by
  unfold byteBit
  split_ifs with ht
  · rw [List.getElem?_append_left (by omega)]
  · rw [List.getElem?_append_right (by omega), show t / 8 - b.length = (t - 8 * b.length) / 8 by omega,
      show t % 8 = (t - 8 * b.length) % 8 by omega]

theorem byteBit_take {b : List Byte} {m t : Nat} (ht : t < 8 * (b.take m).length) :
    byteBit (b.take m) t = byteBit b t := by
  rw [List.length_take] at ht
  unfold byteBit
  rw [List.getElem?_take_of_lt (by omega)]

theorem byteBit_singleton (y : Byte) {t : Nat} (ht : t < 8) : byteBit [y] t = y.getMsbD t := by
  rw [getMsbD_eq_testBit y ht, byteBit, Nat.div_eq_of_lt ht, Nat.mod_eq_of_lt ht]
  rfl

/-- The bits of three bytes are the bits of the group they make. -/
theorem byteBit_groupBytes (y0 y1 y2 : Byte) {t : Nat} (ht : t < 24) :
    byteBit [y0, y1, y2] t = (groupOfBytes y0 y1 y2).getMsbD t := by
  have happend : [y0, y1, y2] = [y0] ++ [y1] ++ [y2] := rfl
  rw [happend, byteBit_append, byteBit_append, groupOfBytes, BitVec.getMsbD_append, BitVec.getMsbD_append]
  simp only [List.length_append, List.length_singleton]
  obtain h0 | ⟨h8, h16⟩ | h16 : t < 8 ∨ (8 ≤ t ∧ t < 16) ∨ 16 ≤ t := by omega
  · rw [if_pos (by omega), if_pos h0, if_neg (by omega), if_neg (by omega)]
    exact byteBit_singleton y0 h0
  · rw [if_pos h16, if_neg (by omega), if_neg (by omega), if_pos h8]
    exact byteBit_singleton y1 (by omega)
  · rw [if_neg (by omega), if_pos h16]
    exact byteBit_singleton y2 (by omega)

/-- Six bits of a group are one of its lanes. -/
theorem getMsbD_groupOfLanes (v : Nat → Sixbit) {l r : Nat} (hl : l < 4) (hr : r < 6) :
    (groupOfLanes (v 0) (v 1) (v 2) (v 3)).getMsbD (6 * l + r) = (v l).getMsbD r := by
  simp only [groupOfLanes, BitVec.getMsbD_append]
  interval_cases l
  · rw [if_neg (by omega), if_neg (by omega), if_neg (by omega), Nat.zero_add]
  · rw [if_neg (by omega), if_neg (by omega), if_pos (by omega), Nat.add_sub_cancel_left]
  · rw [if_neg (by omega), if_pos (by omega), Nat.add_sub_cancel_left]
  · rw [if_pos (by omega), Nat.add_sub_cancel_left]

/-- PACK has zeroed already what U_ENC zeroes (41_encode.md R102, R106). -/
@[simp] theorem keptLane_packLane (s : List Byte) (g k l : Nat) :
    keptLane k l (packLane s g k l) = packLane s g k l := by
  unfold keptLane packLane
  split_ifs <;> rfl

/-- The bits of lane `l` of group `g` are the bits of character `4g + l`, and zeros where the text has no such
character. -/
theorem getMsbD_packLane {s : List Byte} (hs : validText s) (g : Nat) {l r : Nat} (hl : l < 4) (hr : r < 6) :
    (packLane s g (min 4 (s.length - 4 * g)) l).getMsbD r = laneBit s (6 * (4 * g + l) + r) := by
  have hdiv : (6 * (4 * g + l) + r) / 6 = 4 * g + l := by omega
  have hmod : (6 * (4 * g + l) + r) % 6 = r := by omega
  rw [packLane, laneBit, memRead, hdiv, hmod]
  by_cases hlen : 4 * g + l < s.length
  · rw [if_pos (by omega), List.getElem?_eq_getElem hlen]
    dsimp only
    rw [getMsbD_eq_testBit _ hr, toNat_uCin_v (hs _ (List.getElem_mem hlen))]
  · rw [if_neg (by omega), List.getElem?_eq_none (by omega)]
    exact BitVec.getMsbD_zero

/-- The bits of the bytes of group `g` are the bits of its characters. -/
theorem byteBit_packGroup {s : List Byte} (hs : validText s) (g : Nat) {t : Nat}
    (ht : t < 8 * (packGroup s g).length) : byteBit (packGroup s g) t = laneBit s (24 * g + t) := by
  have hlt : t < 24 := by rw [length_packGroup] at ht; omega
  have hlane : t / 6 < 4 := by omega
  have hbit : t % 6 < 6 := Nat.mod_lt t (by decide)
  simp only [packGroup] at ht ⊢
  rw [byteBit_take ht, byteBit_groupBytes _ _ _ hlt, groupOfBytes_uEnc]
  simp only [keptLane_packLane]
  have hgroup := getMsbD_groupOfLanes (packLane s g (min 4 (s.length - 4 * g))) hlane hbit
  rw [Nat.div_add_mod, getMsbD_packLane hs g hlane hbit] at hgroup
  rw [hgroup]
  congr 1
  omega

/-- The bits of the first `k` groups' bytes are the bits of the text. -/
theorem byteBit_flatMap_packGroup {s : List Byte} (hs : validText s) (k : Nat) {t : Nat}
    (ht : t < 8 * ((List.range k).flatMap (packGroup s)).length) :
    byteBit ((List.range k).flatMap (packGroup s)) t = laneBit s t := by
  induction k with
  | zero => exact absurd ht (Nat.not_lt_zero t)
  | succ k ih =>
    rw [List.range_succ, List.flatMap_append, List.flatMap_singleton] at ht ⊢
    rw [byteBit_append]
    split_ifs with hfirst
    · exact ih hfirst
    · rw [List.length_append] at ht
      have hgroup : t - 8 * ((List.range k).flatMap (packGroup s)).length < 8 * (packGroup s k).length := by omega
      have hfull : ((List.range k).flatMap (packGroup s)).length = 3 * k := by
        rw [length_packGroup] at hgroup
        rw [length_flatMap_packGroup, Nat.min_eq_right (by omega)]
        exact need_four_mul_add k (r := 0) (by decide)
      rw [byteBit_packGroup hs k hgroup]
      congr 1
      omega

/-- PACK gives the packed buffer of a valid text. -/
theorem isPacked_pack {s : List Byte} (hs : validText s) : IsPacked s (pack s) :=
  ⟨by rw [length_pack, need_eq_ceil_eighths], fun _ ht => byteBit_flatMap_packGroup hs _ ht⟩

/-! ## ENC and ENCU, case by case (41_encode.md R104, R105) -/

/-- The model's capacity check is R208's, the negation of R8's bound. -/
theorem overCapacity_iff (st : Straps) (n : Nat) : overCapacity st n = true ↔ withinMax st n = false := by
  unfold overCapacity withinMax
  cases st.maxLen with
  | none => exact ⟨nofun, nofun⟩
  | some m => simp only [decide_eq_true_eq, decide_eq_false_iff_not, Nat.not_le]

theorem not_overCapacity {st : Straps} {n : Nat} (h : withinMax st n = true) : ¬ overCapacity st n = true := by
  rw [overCapacity_iff, h]
  exact nofun

theorem firstInvalid_eq_none_iff_validText (s : List Byte) : firstInvalid s = none ↔ validText s := by
  simp only [firstInvalid_eq_none_iff, uCin_ok_iff, validText]

theorem firstInvalid_eq_some_of_least {s : List Byte} {i : Nat} {x : Byte} (hx : s[i]? = some x)
    (hbad : ¬ validChar x) (hleast : ∀ j y, j < i → s[j]? = some y → validChar y) : firstInvalid s = some i := by
  rw [firstInvalid_eq_some_iff]
  exact ⟨x, hx, by simpa only [← uCin_ok_iff, Bool.not_eq_true] using hbad,
    fun j y hj hy => (uCin_ok_iff y).2 (hleast j y hj hy)⟩

section
variable {s : State}

theorem exec_enc_of_overMax (h : withinMax s.straps s.src.length = false) :
    exec .enc s = .next (answered s (errorResponse 6)) := by
  rw [exec, execEnc, if_pos ((overCapacity_iff _ _).2 h)]
  rfl

theorem exec_encu_of_overMax (h : withinMax s.straps s.src.length = false) :
    exec .encu s = .next (answered s (errorResponse 6)) := by
  rw [exec, execEncu, if_pos ((overCapacity_iff _ _).2 h)]
  rfl

theorem exec_enc_of_firstInvalid {i : Nat} {x : Byte} (h : withinMax s.straps s.src.length = true)
    (hi : firstInvalid s.src = some i) (hx : s.src[i]? = some x) :
    exec .enc s = .next (answered s (invalidCharacterResponse i x)) := by
  have hread : memRead s.src i = some x := hx
  rw [exec, execEnc, if_neg (not_overCapacity h), hi]
  dsimp only
  rw [hread]
  rfl

theorem exec_encu_of_not_validText (h : withinMax s.straps s.src.length = true) (hbad : ¬ validText s.src) :
    exec .encu s = .fault .uncheckedContract := by
  rw [← firstInvalid_eq_none_iff_validText] at hbad
  obtain ⟨i, hi⟩ := Option.ne_none_iff_exists'.1 hbad
  rw [exec, execEncu, if_neg (not_overCapacity h), hi]

theorem exec_enc_of_validText (h : withinMax s.straps s.src.length = true) (hs : validText s.src) :
    exec .enc s = .next (answered s (bufferResponse (pack s.src) s.src.length)) := by
  rw [exec, execEnc, if_neg (not_overCapacity h), (firstInvalid_eq_none_iff_validText _).2 hs, fillBuffer_eq]
  rfl

theorem exec_encu_of_validText (h : withinMax s.straps s.src.length = true) (hs : validText s.src) :
    exec .encu s = .next (answered s (bufferResponse (pack s.src) s.src.length)) := by
  rw [exec, execEncu, if_neg (not_overCapacity h), (firstInvalid_eq_none_iff_validText _).2 hs, fillBuffer_eq]
  rfl

end

end Sys2Proof.Machine

namespace Sys2Proof.Proofs

open Sys2Proof Sys2Proof.Machine

/-- Settles O16: a lane has 6 bits, so no shift of U_ENC's formulas loses one and each disjunction is a sum. -/
theorem lineEncoderIsExactArithmetic : Obligations.LineEncoderIsExactArithmetic := by
  intro a b c d k _ _ b' c' d' hb hc hd
  obtain rfl : b' = (keptLane k 1 b).toNat := hb.trans (toNat_keptLane k 1 b).symm
  obtain rfl : c' = (keptLane k 2 c).toNat := hc.trans (toNat_keptLane k 2 c).symm
  obtain rfl : d' = (keptLane k 3 d).toNat := hd.trans (toNat_keptLane k 3 d).symm
  exact ⟨toNat_uEnc_y0 a b c d k, toNat_uEnc_y1 a b c d k, toNat_uEnc_y2 a b c d k, rfl⟩

/-- Settles O18: U_ENC's bytes, read as a group, are the lanes `VIN` has below index `K`. -/
theorem gencMasksTheLanes : Obligations.GencMasksTheLanes := exec_genc

/-- Settles O19: the checks of ENC in their order; what it packs is the packed buffer bit for bit. -/
theorem encAnswers : Obligations.EncAnswers := by
  intro s
  refine ⟨exec_enc_of_overMax, ?_, ?_⟩
  · intro i x hmax hx hbad hleast
    exact exec_enc_of_firstInvalid hmax (firstInvalid_eq_some_of_least hx hbad hleast) hx
  · intro hmax hs
    exact ⟨pack s.src, isPacked_pack hs, exec_enc_of_validText hmax hs⟩

/-- Settles O20: as O19, with the fault in the place of the error status. -/
theorem encuAnswersOrFaults : Obligations.EncuAnswersOrFaults := fun s =>
  ⟨exec_encu_of_overMax, exec_encu_of_not_validText, fun hmax hs =>
    ⟨pack s.src, isPacked_pack hs, exec_encu_of_validText hmax hs⟩⟩

/-- Settles O21: both deliver PACK's bytes. -/
theorem encAndEncuAgree : Obligations.EncAndEncuAgree := fun _ hs hmax =>
  ⟨_, exec_enc_of_validText hmax hs, exec_encu_of_validText hmax hs⟩

end Sys2Proof.Proofs
end

section
/-! PROOFS. The statements of 42_decode.md: U_DEC in exact arithmetic (R130), GDEC (R132), UNPACK's bits (R136, R137,
R139), and DEC, DECU and DECS in every case (R133 to R135, R138, R140). -/

namespace Sys2Proof.Machine

/-! ## U_DEC in exact arithmetic (42_decode.md R130) -/

theorem toNat_byte_ushiftRight (y : Byte) (i : Nat) : (y >>> i).toNat = y.toNat / 2 ^ i := by
  rw [BitVec.toNat_ushiftRight, Nat.shiftRight_eq_div_pow]

theorem toNat_byte_and_low (y : Byte) {i : Nat} (hi : i < 8) :
    (y &&& BitVec.ofNat 8 (2 ^ i - 1)).toNat = y.toNat % 2 ^ i := by
  have hmask : 2 ^ i - 1 < 2 ^ 8 := Nat.lt_of_le_of_lt (Nat.sub_le ..) (Nat.pow_lt_pow_right (by decide) hi)
  rw [BitVec.toNat_and, BitVec.toNat_ofNat, Nat.mod_eq_of_lt hmask, Nat.and_two_pow_sub_one_eq_mod]

/-- Two neighbouring pieces of a lane, 6 bits together, are the lane's value. -/
theorem toNat_setWidth_shiftLeft_or {x y : Byte} {i : Nat} (hx : 2 ^ i * x.toNat + y.toNat < 2 ^ 6)
    (hy : y.toNat < 2 ^ i) : ((x <<< i ||| y).setWidth 6).toNat = 2 ^ i * x.toNat + y.toNat := by
  rw [BitVec.toNat_setWidth, toNat_shiftLeft_or (by omega) hy, Nat.mod_eq_of_lt hx]

theorem toNat_uDec_a (y0 y1 y2 : Byte) (k : Nat) : (uDec y0 y1 y2 k).a.toNat = y0.toNat / 4 := by
  have := y0.isLt
  rw [uDec, BitVec.toNat_setWidth, toNat_byte_ushiftRight]
  omega

theorem toNat_uDec_b (y0 y1 y2 : Byte) (k : Nat) :
    (uDec y0 y1 y2 k).b.toNat = if 2 ≤ k then 16 * (y0.toNat % 4) + y1.toNat / 16 else 0 := by
  have := y1.isLt
  have hlow : (y0 &&& (0x3 : Byte)).toNat = y0.toNat % 4 := toNat_byte_and_low y0 (i := 2) (by decide)
  have hhigh := toNat_byte_ushiftRight y1 4
  rw [uDec, apply_ite BitVec.toNat, toNat_setWidth_shiftLeft_or (by omega) (by omega), hlow, hhigh]
  rfl

theorem toNat_uDec_c (y0 y1 y2 : Byte) (k : Nat) :
    (uDec y0 y1 y2 k).c.toNat = if 3 ≤ k then 4 * (y1.toNat % 16) + y2.toNat / 64 else 0 := by
  have := y2.isLt
  have hlow : (y1 &&& (0xF : Byte)).toNat = y1.toNat % 16 := toNat_byte_and_low y1 (i := 4) (by decide)
  have hhigh := toNat_byte_ushiftRight y2 6
  rw [uDec, apply_ite BitVec.toNat, toNat_setWidth_shiftLeft_or (by omega) (by omega), hlow, hhigh]
  rfl

theorem toNat_uDec_d (y0 y1 y2 : Byte) (k : Nat) :
    (uDec y0 y1 y2 k).d.toNat = if 4 ≤ k then y2.toNat % 64 else 0 := by
  have hlow : (y2 &&& (0x3F : Byte)).toNat = y2.toNat % 64 := toNat_byte_and_low y2 (i := 6) (by decide)
  rw [uDec, apply_ite BitVec.toNat, BitVec.toNat_setWidth, hlow, Nat.mod_mod_of_dvd _ (by decide)]
  rfl

/-! ## U_DEC on a group (42_decode.md R130, R132) -/

/-- Lane `l` of a group, `a` first (30_encoding.md R64). -/
def groupLane (v : Group) (l : Nat) : Sixbit := v.extractLsb' (18 - 6 * l) 6

theorem toNat_groupLane (v : Group) (l : Nat) : (groupLane v l).toNat = v.toNat / 2 ^ (18 - 6 * l) % 2 ^ 6 := by
  rw [groupLane, BitVec.extractLsb'_toNat, Nat.shiftRight_eq_div_pow]

/-- U_DEC reads the lanes of the group its bytes make, and zeroes those at index `k` and above. -/
theorem uDec_eq_groupLanes (y0 y1 y2 : Byte) (k : Nat) :
    uDec y0 y1 y2 k =
      { a := groupLane (groupOfBytes y0 y1 y2) 0
        b := keptLane k 1 (groupLane (groupOfBytes y0 y1 y2) 1)
        c := keptLane k 2 (groupLane (groupOfBytes y0 y1 y2) 2)
        d := keptLane k 3 (groupLane (groupOfBytes y0 y1 y2) 3) } := by
  have := y0.isLt
  have := y1.isLt
  have := y2.isLt
  have hgroup : (groupOfBytes y0 y1 y2).toNat = 2 ^ 8 * (2 ^ 8 * y0.toNat + y1.toNat) + y2.toNat := by
    rw [groupOfBytes, toNat_append_eq_add, toNat_append_eq_add]
  rw [DecOut.mk.injEq]
  simp only [← BitVec.toNat_inj, toNat_uDec_a, toNat_uDec_b, toNat_uDec_c, toNat_uDec_d, toNat_keptLane,
    toNat_groupLane, hgroup]
  refine ⟨by omega, if_congr Iff.rfl ?_ rfl, if_congr Iff.rfl ?_ rfl, if_congr Iff.rfl ?_ rfl⟩ <;> omega

theorem groupOfBytes_groupBytes (v : Group) : groupOfBytes (groupByte0 v) (groupByte1 v) (groupByte2 v) = v := by
  rw [groupOfBytes, groupByte0, groupByte1, groupByte2,
    BitVec.extractLsb'_append_extractLsb'_eq_extractLsb' (start₁ := 8) (len₁ := 8) rfl,
    BitVec.extractLsb'_append_extractLsb'_eq_extractLsb' (start₁ := 0) (len₁ := 8) rfl]
  exact BitVec.extractLsb'_eq_self

theorem groupOfLanes_eq_iff (a b c d a' b' c' d' : Sixbit) :
    groupOfLanes a b c d = groupOfLanes a' b' c' d' ↔ a = a' ∧ b = b' ∧ c = c' ∧ d = d' := by
  refine append_eq_append_iff.trans ?_
  simp only [append_eq_append_iff, and_assoc]

theorem groupLane_groupOfLanes (a b c d : Sixbit) :
    groupLane (groupOfLanes a b c d) 0 = a ∧ groupLane (groupOfLanes a b c d) 1 = b ∧
    groupLane (groupOfLanes a b c d) 2 = c ∧ groupLane (groupOfLanes a b c d) 3 = d :=
  (groupOfLanes_eq_iff ..).1 (groupOfLanes_lanes (groupOfLanes a b c d))

theorem keptLane_keptLane (k l : Nat) (v : Sixbit) : keptLane k l (keptLane k l v) = keptLane k l v := by
  unfold keptLane
  split_ifs <;> rfl

/-- The decoder undoes the encoder up to the lanes the encoder zeroed. -/
theorem uDec_uEnc (a b c d : Sixbit) (k : Nat) :
    uDec (uEnc a b c d k).y0 (uEnc a b c d k).y1 (uEnc a b c d k).y2 k =
      { a := a, b := keptLane k 1 b, c := keptLane k 2 c, d := keptLane k 3 d } := by
  obtain ⟨ha, hb, hc, hd⟩ := groupLane_groupOfLanes a (keptLane k 1 b) (keptLane k 2 c) (keptLane k 3 d)
  rw [uDec_eq_groupLanes, groupOfBytes_uEnc, ha, hb, hc, hd]
  simp only [keptLane_keptLane]

theorem exec_gdec (km1 : BitVec 2) (yin : Group) (s : State) :
    exec (.gdec km1 yin) s = .next (answered s { Response.empty with
      status := some 0
      wout := some (yin &&& groupMask km1) }) := by
  rw [and_groupMask_eq_groupOfLanes]
  simp only [exec, execGdec, uDec_eq_groupLanes, groupOfBytes_groupBytes]
  rfl

/-! ## UNPACK's lanes (42_decode.md R136) -/

/-- Bits beyond the byte sequence, like the bytes UNPACK counts as zero, are 0. -/
theorem byteBit_eq_testBit_getD (b : List Byte) (t : Nat) :
    byteBit b t = ((b[t / 8]?).getD 0).toNat.testBit (7 - t % 8) := by
  unfold byteBit
  cases b[t / 8]? with
  | some y => rfl
  | none => exact (Nat.zero_testBit _).symm

/-- A byte UNPACK reads is the buffer's, or zero where the buffer has none. -/
theorem unpackByte_of_lt (s : List Byte) (g : Nat) {m j : Nat} (hj : j < m) :
    unpackByte s g m j = (s[3 * g + j]?).getD 0 := by
  rw [unpackByte, if_pos hj, memRead]
  cases s[3 * g + j]? with
  | some y => rfl
  | none => rfl

theorem getD_unpackBytes (s : List Byte) (g : Nat) {m j : Nat} (hj : j < m) (hj3 : j < 3) :
    ([unpackByte s g m 0, unpackByte s g m 1, unpackByte s g m 2][j]?).getD 0 = (s[3 * g + j]?).getD 0 := by
  interval_cases j <;> exact unpackByte_of_lt s g hj

/-- The group UNPACK hands to U_DEC: the bytes of group `g` of an `n`-character buffer, and zero bytes in the place of
those it has not. -/
def unpackedGroup (s : List Byte) (n g : Nat) : Group :=
  let m := min (min 4 (n - 4 * g)) 3
  groupOfBytes (unpackByte s g m 0) (unpackByte s g m 1) (unpackByte s g m 2)

/-- The bytes of group `g` hold the bits of the buffer from `24g` on. -/
theorem getMsbD_unpackedGroup (s : List Byte) {n g t : Nat} (ht : t < 6 * min 4 (n - 4 * g)) :
    (unpackedGroup s n g).getMsbD t = byteBit s (24 * g + t) := by
  have hbyte : t / 8 < min (min 4 (n - 4 * g)) 3 := by omega
  have hdiv : (24 * g + t) / 8 = 3 * g + t / 8 := by omega
  have hmod : (24 * g + t) % 8 = t % 8 := by omega
  rw [unpackedGroup, ← byteBit_groupBytes _ _ _ (by omega), byteBit_eq_testBit_getD, byteBit_eq_testBit_getD, hdiv,
    hmod, getD_unpackBytes s g hbyte (by omega)]

/-- Six bits of a group are one of its lanes. -/
theorem getMsbD_groupLane (v : Group) {l r : Nat} (hl : l < 4) (hr : r < 6) :
    (groupLane v l).getMsbD r = v.getMsbD (6 * l + r) := by
  rw [← getMsbD_groupOfLanes (groupLane v) hl hr]
  exact congrArg (BitVec.getMsbD · (6 * l + r)) (groupOfLanes_lanes v)

/-- Below the group's size U_DEC zeroes no lane. -/
theorem getElem?_unpackGroup (s : List Byte) {n g l : Nat} (hl : l < min 4 (n - 4 * g)) :
    (unpackGroup s n g)[l]? = some (groupLane (unpackedGroup s n g) l) := by
  have hl4 : l < 4 := by omega
  simp only [unpackGroup, uDec_eq_groupLanes]
  rw [List.getElem?_take_of_lt hl]
  interval_cases l
  · rfl
  all_goals exact congrArg some (if_pos hl)

theorem getElem?_flatMap_unpackGroup (s : List Byte) (n k : Nat) {i : Nat} (hi : i < min n (4 * k)) :
    ((List.range k).flatMap (unpackGroup s n))[i]? = some (groupLane (unpackedGroup s n (i / 4)) (i % 4)) := by
  induction k with
  | zero => exact absurd hi (by omega)
  | succ k ih =>
    rw [List.range_succ, List.flatMap_append, List.flatMap_singleton, List.getElem?_append, length_flatMap_unpackGroup]
    split_ifs with hfirst
    · exact ih hfirst
    · have hdiv : i / 4 = k := by omega
      have hmod : i - min n (4 * k) = i % 4 := by omega
      rw [hmod, hdiv, getElem?_unpackGroup s (by omega)]

/-- Character `i` of UNPACK is the code of lane `i % 4` of group `i / 4`. -/
theorem getElem?_unpack (s : List Byte) {n i : Nat} (hi : i < n) :
    (unpack s n)[i]? = some (uCout (groupLane (unpackedGroup s n (i / 4)) (i % 4))) := by
  rw [unpack, List.getElem?_map, unpackLanes,
    getElem?_flatMap_unpackGroup s n _ (by rwa [min_four_mul_groupCount])]
  rfl

/-- Every byte UNPACK gives is the code of a 6-bit value (42_decode.md R139). -/
theorem validText_unpack (s : List Byte) (n : Nat) : validText (unpack s n) := by
  intro x hx
  obtain ⟨v, -, rfl⟩ := List.mem_map.1 hx
  exact validChar_uCout v

/-- UNPACK's text has the bits of the buffer in order. -/
theorem isUnpacked_unpack (s : List Byte) (n : Nat) : IsUnpacked s n (unpack s n) := by
  refine ⟨length_unpack s n, validText_unpack s n, fun t ht => ?_⟩
  have hbit : 6 * (t / 6 % 4) + t % 6 < 6 * min 4 (n - 4 * (t / 6 / 4)) := by omega
  rw [laneBit, getElem?_unpack s (by omega)]
  dsimp only
  rw [toNat_uCout, Nat.add_sub_cancel, ← getMsbD_eq_testBit _ (by omega), getMsbD_groupLane _ (by omega) (by omega),
    getMsbD_unpackedGroup s hbit]
  congr 1
  omega

/-! ## The bits determine the text (42_decode.md R137, R138) -/

/-- Six bits of a text are the value of one character. -/
theorem laneBit_eq_getMsbD {s : List Byte} {i r : Nat} (hi : i < s.length) (hx : validChar s[i]) (hr : r < 6) :
    laneBit s (6 * i + r) = (uCin s[i]).v.getMsbD r := by
  have hdiv : (6 * i + r) / 6 = i := by omega
  have hmod : (6 * i + r) % 6 = r := by omega
  rw [laneBit, hdiv, hmod, List.getElem?_eq_getElem hi, getMsbD_eq_testBit _ hr, toNat_uCin_v hx]

/-- Buffers that agree on the bits of the characters have the same text. -/
theorem isUnpacked_unique {b b' : List Byte} {n : Nat} {t t' : List Byte} (ht : IsUnpacked b n t)
    (ht' : IsUnpacked b' n t') (hbits : ∀ k, k < 6 * n → byteBit b k = byteBit b' k) : t = t' := by
  obtain ⟨hlen, hvalid, hlane⟩ := ht
  obtain ⟨hlen', hvalid', hlane'⟩ := ht'
  refine List.ext_getElem (hlen.trans hlen'.symm) fun i hi hi' => ?_
  have hx := hvalid _ (List.getElem_mem hi)
  have hx' := hvalid' _ (List.getElem_mem hi')
  have hvalue : (uCin t[i]).v = (uCin t'[i]).v := by
    refine BitVec.eq_of_getMsbD_eq fun r hr => ?_
    have hk : 6 * i + r < 6 * n := by omega
    rw [← laneBit_eq_getMsbD hi hx hr, ← laneBit_eq_getMsbD hi' hx' hr, hlane _ hk, hlane' _ hk, hbits _ hk]
  rw [← uCout_uCin hx, hvalue, uCout_uCin hx']

/-- The text is the unpacked text of its packed buffer. -/
theorem isUnpacked_of_isPacked {s b : List Byte} (hs : validText s) (hb : IsPacked s b) : IsUnpacked b s.length s := by
  obtain ⟨hlen, hbits⟩ := hb
  exact ⟨rfl, hs, fun t ht => (hbits t (by omega)).symm⟩

/-- UNPACK undoes PACK (42_decode.md R138). -/
theorem unpack_pack {s : List Byte} (hs : validText s) : unpack (pack s) s.length = s :=
  isUnpacked_unique (isUnpacked_unpack _ _) (isUnpacked_of_isPacked hs (isPacked_pack hs)) fun _ _ => rfl

/-! ## DEC, DECU and DECS, case by case (42_decode.md R133 to R135) -/

theorem withinMax_zero (st : Straps) : withinMax st 0 = true := by
  unfold withinMax
  cases st.maxLen with
  | none => rfl
  | some m => exact decide_eq_true (Nat.zero_le m)

section
variable {s : State}

theorem exec_dec_of_overMax (h : withinMax s.straps s.len = false) :
    exec .dec s = .next (answered s (errorResponse 6)) := by
  rw [exec, execDec, if_pos ((overCapacity_iff _ _).2 h)]
  rfl

theorem exec_dec_of_ne_need (h : withinMax s.straps s.len = true) (hlen : s.src.length ≠ need s.len) :
    exec .dec s = .next (answered s (errorResponse 2)) := by
  rw [exec, execDec, if_neg (not_overCapacity h), if_pos hlen]
  rfl

/-- On a buffer of `need(LEN)` bytes within `MAX_LEN` every decoder to a text answers with the unpacked text. For DECU
at `LEN = 0` that is the empty text. -/
theorem exec_decoder_of_eq_need {i : Instr} (hi : i = .dec ∨ i = .decu ∨ i = .decs ∨ i = .envr)
    (h : withinMax s.straps s.len = true) (hlen : s.src.length = need s.len) :
    exec i s = .next (answered s (bufferResponse (unpack s.src s.len) s.len)) := by
  rw [← returnText_eq_answered]
  rcases hi with rfl | rfl | rfl | rfl
  · rw [exec, execDec, if_neg (not_overCapacity h), if_neg (not_not_intro hlen)]
  · rw [exec, execDecu, if_neg (not_overCapacity h), if_neg (not_not_intro hlen)]
    split_ifs with hzero
    · rw [hzero]
      rfl
    · rfl
  · rw [exec, execDecs, if_neg (not_overCapacity h), if_neg (not_not_intro hlen), no_lane_exceeds_63]
    rfl
  · rw [exec, execEnvr, if_neg (not_overCapacity h), if_pos hlen]

theorem exec_decu_of_overMax (h : withinMax s.straps s.len = false) :
    exec .decu s = .next (answered s (errorResponse 6)) := by
  rw [exec, execDecu, if_pos ((overCapacity_iff _ _).2 h)]
  rfl

theorem exec_decu_of_len_eq_zero (hzero : s.len = 0) : exec .decu s = .next (answered s (bufferResponse [] 0)) := by
  have h : withinMax s.straps s.len = true := hzero ▸ withinMax_zero s.straps
  rw [exec, execDecu, if_neg (not_overCapacity h), if_pos hzero, returnText_eq_answered]

theorem exec_decu_of_ne_need (h : withinMax s.straps s.len = true) (hpos : 0 < s.len)
    (hlen : s.src.length ≠ need s.len) : exec .decu s = .fault .uncheckedContract := by
  rw [exec, execDecu, if_neg (not_overCapacity h), if_neg hpos.ne', if_pos hlen]

/-- The one check DECS makes beyond those of DEC never fires (60_exceptions.md R204). -/
theorem exec_decs_eq_exec_dec : exec .decs s = exec .dec s := by
  simp only [exec, execDecs, execDec, no_lane_exceeds_63, Bool.false_eq_true, if_false]

end

/-! ## What a decoder writes (42_decode.md R139) -/

/-- If the outcome is a response with `DST`, its bytes are characters. -/
def WritesCharacters (o : Result) : Prop := ∀ t d, o = .next t → t.resp.dst = some d → validText d

namespace WritesCharacters

theorem error {c : Status} {i : Option Nat} {x : Option Byte} {s : State} :
    WritesCharacters (.next (raiseStatus c i x s)) := by
  intro t d h hd
  obtain rfl := Host.Outcome.next.inj h
  cases hd

theorem fault {f : Fault} : WritesCharacters (.fault f) := fun _ _ h => nomatch h

theorem text {d : List Byte} {n : Nat} {s : State} (hd : validText d) :
    WritesCharacters (.next (returnText d n s)) := by
  intro t d' h hd'
  rw [returnText_eq_answered] at h
  obtain rfl := Host.Outcome.next.inj h
  obtain rfl := Option.some.inj hd'
  exact hd

theorem ite {p : Prop} [Decidable p] {o o' : Result} (h : WritesCharacters o) (h' : WritesCharacters o') :
    WritesCharacters (if p then o else o') := by
  split
  · exact h
  · exact h'

end WritesCharacters

/-- The decoders to a text deliver an unpacked text, if any. -/
theorem exec_writesCharacters {i : Instr} (hi : i = .dec ∨ i = .decu ∨ i = .decs ∨ i = .envr) (s : State) :
    WritesCharacters (exec i s) := by
  have htext (b : List Byte) : WritesCharacters (.next (returnText (unpack b s.len) s.len s)) :=
    .text (validText_unpack b s.len)
  have hempty : WritesCharacters (.next (returnText [] 0 s)) := .text (List.forall_mem_nil _)
  rcases hi with rfl | rfl | rfl | rfl
  · exact .ite .error (.ite .error (htext _))
  · exact .ite .error (.ite hempty (.ite .fault (htext _)))
  · exact .ite .error (.ite .error (.ite .error (htext _)))
  · exact .ite .error (.ite (htext _) (.ite (htext _) .fault))

end Sys2Proof.Machine

namespace Sys2Proof.Proofs

open Sys2Proof Sys2Proof.Machine

/-- Settles O17: the pieces of a lane do not overlap, and U_DEC's bytes make the group that U_ENC's lanes make. -/
theorem lineDecoderInvertsLineEncoder : Obligations.LineDecoderInvertsLineEncoder := by
  refine ⟨fun y0 y1 y2 k _ _ => ?_, fun a b c d k _ _ => uDec_uEnc a b c d k⟩
  exact ⟨toNat_uDec_a y0 y1 y2 k, toNat_uDec_b y0 y1 y2 k, toNat_uDec_c y0 y1 y2 k, toNat_uDec_d y0 y1 y2 k⟩

/-- Settles O22: U_DEC's lanes, read as a group, are the lanes of `YIN` below index `K`. -/
theorem gdecMasksTheGroup : Obligations.GdecMasksTheGroup := exec_gdec

/-- Settles O23: the checks of DEC in their order; what it unpacks has the bits of `SRC` in order. -/
theorem decAnswers : Obligations.DecAnswers := fun _ =>
  ⟨exec_dec_of_overMax, exec_dec_of_ne_need, fun hmax hlen =>
    ⟨_, isUnpacked_unpack _ _, exec_decoder_of_eq_need (.inl rfl) hmax hlen⟩⟩

/-- Settles O24: `LEN = 0` is within every `MAX_LEN` and needs no check of `SRC`; the rest is as O23, with the fault in
the place of the error status. -/
theorem decuAnswersOrFaults : Obligations.DecuAnswersOrFaults := fun _ =>
  ⟨exec_decu_of_overMax, exec_decu_of_len_eq_zero, exec_decu_of_ne_need, fun hmax _ hlen =>
    ⟨_, isUnpacked_unpack _ _, exec_decoder_of_eq_need (.inr (.inl rfl)) hmax hlen⟩⟩

/-- Settles O25, from O23: DECS has the outcome of DEC. -/
theorem decsAnswersAsDec : Obligations.DecsAnswersAsDec := by
  intro s
  rw [exec_decs_eq_exec_dec]
  obtain ⟨hover, hlength, htext⟩ := decAnswers s
  exact ⟨hover, hlength, htext, rfl⟩

/-- Settles O26: all three deliver UNPACK's text. -/
theorem decodersAgree : Obligations.DecodersAgree := fun _ hlen hmax =>
  ⟨_, exec_decoder_of_eq_need (.inl rfl) hmax hlen, exec_decoder_of_eq_need (.inr (.inl rfl)) hmax hlen,
    exec_decoder_of_eq_need (.inr (.inr (.inl rfl))) hmax hlen⟩

/-- Settles O27: the bits of the characters determine the text. -/
theorem decodersIgnorePadding : Obligations.DecodersIgnorePadding := by
  intro i s src' hi hmax hlen hlen' hbits
  have htext : unpack s.src s.len = unpack src' s.len :=
    isUnpacked_unique (isUnpacked_unpack _ _) (isUnpacked_unpack _ _) hbits
  refine ⟨_, exec_decoder_of_eq_need hi hmax hlen, ?_⟩
  rw [htext]
  exact exec_decoder_of_eq_need hi hmax hlen'

/-- Settles O28: every byte of an unpacked text is U_COUT of a 6-bit value. -/
theorem decodedBytesAreCharacters : Obligations.DecodedBytesAreCharacters := fun _ s t d hi =>
  exec_writesCharacters hi s t d

/-- Settles O29: PACK's bytes are `need(n)` many, so DEC accepts them, and UNPACK undoes PACK. -/
theorem decodeOfEncodeIsTheText : Obligations.DecodeOfEncodeIsTheText := by
  intro s hs hmax
  refine ⟨_, _, exec_enc_of_validText hmax hs, ?_⟩
  have hdec := exec_decoder_of_eq_need (s := { s with src := pack s.src, len := s.src.length }) (.inl rfl) hmax
    (length_pack s.src)
  rwa [unpack_pack hs] at hdec

end Sys2Proof.Proofs
end

section
/-! PROOFS. The statements of 43_envelope.md: U_MDET and U_LREC (R160, R162) with MDET and LREC (R161, R163), the last
packed byte (R168, R170), ENVB, ENVP and ENVR in every case (R164 to R166), and what comes back (R169). -/

namespace Sys2Proof.Machine

/-! ## The trailing-zero detectors (43_envelope.md R160 to R163) -/

theorem lowSixZero_iff (last : Byte) : lowSixZero last = true ↔ last.toNat % 64 = 0 := by
  rw [lowSixZero, beq_iff_eq, BitVec.toNat_eq, BitVec.extractLsb'_toNat]
  rfl

theorem lowSixZero_iff_extractLsb' (last : Byte) : lowSixZero last = true ↔ last.extractLsb' 0 6 = 0 :=
  beq_iff_eq

theorem uMdet_eq_decide (n : Nat) (last : Byte) :
    uMdet n last = decide (0 < n ∧ n % 4 = 0 ∧ last.toNat % 64 = 0) := by
  rw [Bool.eq_iff_iff, uMdet_eq_true_iff, lowSixZero_iff, decide_eq_true_iff]

theorem exec_mdet (last : Byte) (s : State) :
    exec (.mdet last) s = .next (answered s { Response.empty with
      status := some 0
      flag := some (decide (0 < s.len ∧ s.len % 4 = 0 ∧ last.toNat % 64 = 0)) }) := by
  rw [← uMdet_eq_decide]
  rfl

section
variable {st : Straps} {nb n : Nat} {last : Byte} {strip : Bool}

/-- U_LREC computes what R162's cases say; by the remainder of the byte count, no two of them meet. -/
theorem uLrec_of_recovers (h : Recovers st nb last n strip) :
    uLrec st nb last = { length := n, strip := strip, malf := false } := by
  obtain ⟨q, ⟨rfl, hkept, rfl, rfl⟩ | ⟨rfl, hrule, hq, hzero, rfl, rfl⟩ | ⟨rfl, rfl, rfl, rfl⟩ |
    ⟨rfl, hlast, rfl, rfl⟩ | ⟨rfl, rfl, rfl⟩⟩ := h
  · have hnot : ¬ (st.rem0Rule = .trailingZeroShorter ∧ 0 < q ∧ lowSixZero last = true) := by
      rintro ⟨hrule, hq, hzero⟩
      rw [lowSixZero_iff] at hzero
      rw [hrule] at hkept
      exact hkept.elim nofun fun h => h.elim hq.ne' (· hzero)
    have hdiv : 3 * q / 3 = q := by omega
    simp only [uLrec, hdiv, Nat.mul_mod_right, if_true, if_neg hnot]
  · have hshorter := And.intro hrule (And.intro hq ((lowSixZero_iff last).2 hzero))
    have hdiv : 3 * q / 3 = q := by omega
    simp only [uLrec, hdiv, Nat.mul_mod_right, if_true, if_pos hshorter]
  · have hdiv : (3 * q + 1) / 3 = q := by omega
    have hmod : (3 * q + 1) % 3 = 1 := by omega
    simp [uLrec, hdiv, hmod]
  · have hdiv : (3 * q + 1) / 3 = q := by omega
    have hmod : (3 * q + 1) % 3 = 1 := by omega
    simp [uLrec, hdiv, hmod, hlast]
  · have hdiv : (3 * q + 2) / 3 = q := by omega
    have hmod : (3 * q + 2) % 3 = 2 := by omega
    simp [uLrec, hdiv, hmod]

/-- R162's cases cover every byte count. -/
theorem exists_recovers (st : Straps) (nb : Nat) (last : Byte) : ∃ n strip, Recovers st nb last n strip := by
  obtain ⟨q, rfl | rfl | rfl⟩ : ∃ q, nb = 3 * q ∨ nb = 3 * q + 1 ∨ nb = 3 * q + 2 := ⟨nb / 3, by omega⟩
  · by_cases hzero : q = 0 ∨ last.toNat % 64 ≠ 0
    · exact ⟨_, _, q, .inl ⟨rfl, .inr hzero, rfl, rfl⟩⟩
    · obtain ⟨hq, hlow⟩ := not_or.1 hzero
      cases hrule : st.rem0Rule with
      | count => exact ⟨_, _, q, .inl ⟨rfl, .inl hrule, rfl, rfl⟩⟩
      | trailingZeroShorter =>
        exact ⟨_, _, q, .inr (.inl ⟨rfl, hrule, Nat.pos_of_ne_zero hq, not_not.1 hlow, rfl, rfl⟩)⟩
  · by_cases hlast : last = st.marker
    · exact ⟨_, _, q, .inr (.inr (.inl ⟨rfl, hlast, rfl, rfl⟩))⟩
    · exact ⟨_, _, q, .inr (.inr (.inr (.inl ⟨rfl, hlast, rfl, rfl⟩)))⟩
  · exact ⟨_, _, q, .inr (.inr (.inr (.inr ⟨rfl, rfl, rfl⟩)))⟩

theorem recovers_unique {n' : Nat} {strip' : Bool} (h : Recovers st nb last n strip)
    (h' : Recovers st nb last n' strip') : n' = n ∧ strip' = strip := by
  have heq := (uLrec_of_recovers h').symm.trans (uLrec_of_recovers h)
  exact ⟨congrArg LrecOut.length heq, congrArg LrecOut.strip heq⟩

theorem exec_lrec_of_overMax {s : State} (h : Recovers s.straps s.len last n strip)
    (hmax : withinMax s.straps n = false) : exec (.lrec last) s = .next (answered s (errorResponse 6)) := by
  simp only [exec, execLrec, uLrec_of_recovers h, (overCapacity_iff _ _).2 hmax]
  rfl

theorem exec_lrec_of_withinMax {s : State} (h : Recovers s.straps s.len last n strip)
    (hmax : withinMax s.straps n = true) :
    exec (.lrec last) s = .next (answered s { Response.empty with
      status := some 0
      olen := some n
      flag := some strip }) := by
  simp only [exec, execLrec, uLrec_of_recovers h, if_neg (not_overCapacity hmax)]
  rfl

end

/-! ## The last packed byte (43_envelope.md R168, R170) -/

theorem laneBit_of_le {s : List Byte} {t : Nat} (h : 6 * s.length ≤ t) : laneBit s t = false := by
  rw [laneBit, List.getElem?_eq_none (by omega)]

/-- The low `k` bits of the last byte are the last `k` bits of the buffer. -/
theorem getMsbD_lowBits_lastByte {b : List Byte} (hb : b ≠ []) {k r : Nat} (hk : k ≤ 8) (hr : r < k) :
    ((lastByte b).extractLsb' 0 k).getMsbD r = byteBit b (8 * b.length - k + r) := by
  obtain rfl | ⟨l, y, rfl⟩ := List.eq_nil_or_concat' b
  · exact absurd rfl hb
  · have hlow : (y.extractLsb' 0 k).getMsbD r = y.getMsbD (8 - k + r) := by
      rw [BitVec.getMsbD_extractLsb', decide_eq_true hr, decide_eq_true (by omega), Bool.true_and, Bool.true_and]
      congr 1
      omega
    have hpos : 8 * (l ++ [y]).length - k + r = 8 * l.length + (8 - k + r) := by
      rw [List.length_append, List.length_singleton]
      omega
    rw [lastByte_append, hlow, hpos, byteBit_append, if_neg (by omega), Nat.add_sub_cancel_left,
      byteBit_singleton y (by omega)]

/-- The same, for the packed buffer of a text. -/
theorem getMsbD_lowBits_lastByte_pack {s : List Byte} (hs : validText s) (hne : 0 < need s.length) {k r : Nat}
    (hk : k ≤ 8) (hr : r < k) :
    ((lastByte (pack s)).extractLsb' 0 k).getMsbD r = laneBit s (8 * need s.length - k + r) := by
  have hlen := length_pack s
  obtain ⟨-, hbits⟩ := isPacked_pack hs
  rw [getMsbD_lowBits_lastByte (List.ne_nil_of_length_pos (by omega)) hk hr, hbits _ (by omega), hlen]

/-- The padding bits of the last packed byte are zero. -/
theorem lowBits_lastByte_pack_eq_zero {s : List Byte} (hs : validText s) {k : Nat} (hk : k ≤ 8)
    (hpad : 6 * s.length + k ≤ 8 * need s.length) : (lastByte (pack s)).extractLsb' 0 k = 0 := by
  refine BitVec.eq_of_getMsbD_eq fun r hr => ?_
  rw [getMsbD_lowBits_lastByte_pack hs (by omega) hk hr, laneBit_of_le (by omega)]
  exact BitVec.getMsbD_zero.symm

/-- After whole groups, the low six bits of the last packed byte are the value of the last character. -/
theorem lowSix_lastByte_pack {l : List Byte} {x : Byte} (hs : validText (l ++ [x]))
    (hmod : (l ++ [x]).length % 4 = 0) : (lastByte (pack (l ++ [x]))).extractLsb' 0 6 = (uCin x).v := by
  have hlen : (l ++ [x]).length = l.length + 1 := List.length_append
  have hneed : 8 * need (l ++ [x]).length = 6 * (l ++ [x]).length := by
    unfold need
    omega
  have hx : (l ++ [x])[l.length] = x := List.getElem_concat_length rfl _
  refine BitVec.eq_of_getMsbD_eq fun r hr => ?_
  have hbit : 8 * need (l ++ [x]).length - 6 + r = 6 * l.length + r := by omega
  rw [getMsbD_lowBits_lastByte_pack hs (by omega) (by decide) hr, hbit,
    laneBit_eq_getMsbD (by omega) (hs _ (List.getElem_mem _)) hr, hx]

theorem uCin_v_eq_zero_iff {x : Byte} (hx : validChar x) : (uCin x).v = 0 ↔ x = 0x20 := by
  constructor
  · intro hv
    rw [← uCout_uCin hx, hv]
    rfl
  · rintro rfl
    rfl

/-- The marker's condition, on a text: a positive multiple of 4 characters, the last of them a space (R170). -/
abbrev EndsInAmbiguousSpace (s : List Byte) : Prop :=
  0 < s.length ∧ s.length % 4 = 0 ∧ s.getLast? = some 0x20

/-- U_MDET's answer on a packed text is about the text's last character. -/
theorem uMdet_pack_iff {s : List Byte} (hs : validText s) :
    uMdet s.length (lastByte (pack s)) = true ↔ EndsInAmbiguousSpace s := by
  rw [uMdet_eq_true_iff]
  refine and_congr_right fun hpos => and_congr_right fun hmod => ?_
  obtain rfl | ⟨l, x, rfl⟩ := List.eq_nil_or_concat' s
  · exact absurd hpos (Nat.lt_irrefl 0)
  · rw [lowSixZero_iff_extractLsb', lowSix_lastByte_pack hs hmod, uCin_v_eq_zero_iff (hs x (by simp)),
      List.getLast?_concat, Option.some_inj]

/-- A text of length 1 mod 4 leaves two padding bits, and `MARKER`'s low two bits are not both zero. -/
theorem lastByte_pack_ne_marker {st : Straps} {s : List Byte} (hst : st.wf = true) (hs : validText s)
    (hmod : s.length % 4 = 1) : lastByte (pack s) ≠ st.marker := by
  intro heq
  have hpad : (lastByte (pack s)).extractLsb' 0 2 = 0 :=
    lowBits_lastByte_pack_eq_zero hs (by decide) (by unfold need; omega)
  obtain ⟨hmarker, -⟩ := Bool.and_eq_true_iff.1 hst
  rw [Straps.markerOk, ← heq, hpad] at hmarker
  exact absurd hmarker (by decide)

/-! ## ENVB, case by case (43_envelope.md R164) -/

/-- `ENV_BYTES` of the text's envelope: its packed bytes, and the marker where the text's end asks for it. -/
def envbBytes (st : Straps) (s : List Byte) : List Byte :=
  if EndsInAmbiguousSpace s then pack s ++ [st.marker] else pack s

section
variable {s : State}

theorem exec_envb_of_overMax (h : withinMax s.straps s.src.length = false) :
    exec .envb s = .next (answered s (errorResponse 6)) := by
  rw [exec, execEnvb, if_pos ((overCapacity_iff _ _).2 h)]
  rfl

theorem exec_envb_of_firstInvalid {i : Nat} {x : Byte} (h : withinMax s.straps s.src.length = true)
    (hi : firstInvalid s.src = some i) (hx : s.src[i]? = some x) :
    exec .envb s = .next (answered s (invalidCharacterResponse i x)) := by
  have hread : memRead s.src i = some x := hx
  rw [exec, execEnvb, if_neg (not_overCapacity h), hi]
  dsimp only
  rw [hread]
  rfl

theorem exec_envb_of_validText (h : withinMax s.straps s.src.length = true) (hs : validText s.src) :
    exec .envb s = .next (answered s
      (envelopeResponse (envbBytes s.straps s.src) s.src.length (decide (EndsInAmbiguousSpace s.src)))) := by
  have hflag : uMdet s.src.length (lastByte (pack s.src)) = decide (EndsInAmbiguousSpace s.src) := by
    rw [Bool.eq_iff_iff, uMdet_pack_iff hs, decide_eq_true_iff]
  rw [exec, execEnvb, if_neg (not_overCapacity h), (firstInvalid_eq_none_iff_validText _).2 hs]
  simp only [hflag, fillBuffer_eq, decide_eq_true_eq]
  rfl

end

/-! ## ENVP and ENVR, case by case (43_envelope.md R165, R166) -/

section
variable {s : State}

theorem exec_envp_of_overMax {n : Nat} {strip : Bool} (h : Recovers s.straps s.src.length (lastByte s.src) n strip)
    (hmax : withinMax s.straps n = false) : exec .envp s = .next (answered s (errorResponse 6)) := by
  simp only [exec, execEnvp, uLrec_of_recovers h, (overCapacity_iff _ _).2 hmax]
  rfl

theorem exec_envp_of_withinMax {n : Nat} {strip : Bool} (h : Recovers s.straps s.src.length (lastByte s.src) n strip)
    (hmax : withinMax s.straps n = true) : exec .envp s = .next (answered s (envelopeResponse s.src n strip)) := by
  simp only [exec, execEnvp, uLrec_of_recovers h, if_neg (not_overCapacity hmax), fillBuffer_eq]
  rfl

theorem exec_envr_of_overMax (h : withinMax s.straps s.len = false) :
    exec .envr s = .next (answered s (errorResponse 6)) := by
  rw [exec, execEnvr, if_pos ((overCapacity_iff _ _).2 h)]
  rfl

/-- ENVR's check of a marked pair says that `SRC` is `need(LEN)` bytes and the marker. -/
theorem marked_iff (b : List Byte) (n : Nat) (m : Byte) :
    (b.length = need n + 1 ∧ n % 4 = 0 ∧ memRead b (b.length - 1) = some m) ↔
      ∃ body, b = body ++ [m] ∧ body.length = need n ∧ n % 4 = 0 := by
  rw [memRead, ← List.getLast?_eq_getElem?, List.getLast?_eq_some_iff]
  constructor
  · rintro ⟨hlen, hmod, body, rfl⟩
    rw [List.length_append, List.length_singleton] at hlen
    exact ⟨body, rfl, by omega, hmod⟩
  · rintro ⟨body, rfl, hbody, hmod⟩
    exact ⟨by rw [List.length_append, hbody, List.length_singleton], hmod, body, rfl⟩

theorem exec_envr_of_marked {body : List Byte} (h : withinMax s.straps s.len = true)
    (hsrc : s.src = body ++ [s.straps.marker]) (hbody : body.length = need s.len) (hmod : s.len % 4 = 0) :
    exec .envr s = .next (answered s (bufferResponse (unpack body s.len) s.len)) := by
  have hmarked := (marked_iff s.src s.len s.straps.marker).2 ⟨body, hsrc, hbody, hmod⟩
  have hcut : s.src.take (s.src.length - 1) = body := by
    rw [← List.dropLast_eq_take, hsrc, List.dropLast_concat]
  rw [exec, execEnvr, if_neg (not_overCapacity h), if_neg (by omega), if_pos hmarked, hcut, returnText_eq_answered]

theorem exec_envr_of_not_envelope (h : withinMax s.straps s.len = true) (hplain : s.src.length ≠ need s.len)
    (hmarked : ¬ ∃ body, s.src = body ++ [s.straps.marker] ∧ body.length = need s.len ∧ s.len % 4 = 0) :
    exec .envr s = .fault .uncheckedContract := by
  rw [← marked_iff] at hmarked
  rw [exec, execEnvr, if_neg (not_overCapacity h), if_neg hplain, if_neg hmarked]

end

/-! ## What comes back (43_envelope.md R169) -/

/-- ENVR of the text's envelope is the text: UNPACK gets PACK's bytes, the marker cut off. -/
theorem exec_envr_envbBytes {s : State} {t : List Byte} (ht : validText t) (hsrc : s.src = envbBytes s.straps t)
    (hlen : s.len = t.length) (hmax : withinMax s.straps s.len = true) :
    exec .envr s = .next (answered s (bufferResponse t s.len)) := by
  have htext : unpack (pack t) s.len = t := by rw [hlen, unpack_pack ht]
  have hpack : (pack t).length = need s.len := by rw [hlen, length_pack]
  by_cases hend : EndsInAmbiguousSpace t
  · have ⟨_, hmod, _⟩ := hend
    rw [envbBytes, if_pos hend] at hsrc
    rw [exec_envr_of_marked hmax hsrc hpack (hlen ▸ hmod), htext]
  · rw [envbBytes, if_neg hend] at hsrc
    rw [exec_decoder_of_eq_need (.inr (.inr (.inr rfl))) hmax (hsrc ▸ hpack), hsrc, htext]

/-- After whole groups without the ambiguity, the last packed byte does not look like padding. -/
theorem lowSix_lastByte_pack_ne_zero {s : List Byte} (hs : validText s) (hpos : 0 < s.length)
    (hmod : s.length % 4 = 0) (hend : ¬ EndsInAmbiguousSpace s) : (lastByte (pack s)).toNat % 64 ≠ 0 := by
  intro hlow
  exact hend ((uMdet_pack_iff hs).1 ((uMdet_eq_true_iff _ _).2 ⟨hpos, hmod, (lowSixZero_iff _).2 hlow⟩))

/-- Without its marker, the envelope of a text whose length is not 3 mod 4 has the text's length by R162. -/
theorem recovers_pack {st : Straps} {s : List Byte} (hst : st.wf = true) (hs : validText s)
    (hmod : s.length % 4 ≠ 3) (hend : ¬ EndsInAmbiguousSpace s) :
    Recovers st (pack s).length (lastByte (pack s)) s.length false := by
  rw [length_pack]
  obtain h0 | h1 | h2 : s.length % 4 = 0 ∨ s.length % 4 = 1 ∨ s.length % 4 = 2 := by omega
  · have hkept : s.length / 4 = 0 ∨ (lastByte (pack s)).toNat % 64 ≠ 0 := by
      refine (Nat.eq_zero_or_pos (s.length / 4)).imp_right fun hq => ?_
      exact lowSix_lastByte_pack_ne_zero hs (by omega) h0 hend
    exact ⟨s.length / 4, .inl ⟨by unfold need; omega, .inr hkept, by omega, rfl⟩⟩
  · have hlast := lastByte_pack_ne_marker hst hs h1
    exact ⟨s.length / 4, .inr (.inr (.inr (.inl ⟨by unfold need; omega, hlast, by omega, rfl⟩)))⟩
  · exact ⟨s.length / 4, .inr (.inr (.inr (.inr ⟨by unfold need; omega, by omega, rfl⟩)))⟩

theorem lowSix_lastByte_pack_eq_zero {s : List Byte} (hs : validText s) (hmod : s.length % 4 = 3) :
    (lastByte (pack s)).toNat % 64 = 0 := by
  rw [← lowSixZero_iff, lowSixZero_iff_extractLsb']
  exact lowBits_lastByte_pack_eq_zero hs (by decide) (by unfold need; omega)

/-- A length 3 mod 4 leaves six padding bits, which `TRAILING_ZERO_SHORTER` reads as no character. -/
theorem recovers_pack_shorter {st : Straps} {s : List Byte} (hs : validText s) (hmod : s.length % 4 = 3)
    (hrule : st.rem0Rule = .trailingZeroShorter) :
    Recovers st (pack s).length (lastByte (pack s)) s.length false := by
  rw [length_pack]
  exact ⟨s.length / 4 + 1, .inr (.inl ⟨by unfold need; omega, hrule, by omega, lowSix_lastByte_pack_eq_zero hs hmod,
    by omega, rfl⟩)⟩

/-- `COUNT` reads the six padding bits as one more character. -/
theorem recovers_pack_count (st : Straps) {s : List Byte} (hmod : s.length % 4 = 3) (hrule : st.rem0Rule = .count) :
    Recovers st (pack s).length (lastByte (pack s)) (s.length + 1) false := by
  rw [length_pack]
  exact ⟨s.length / 4 + 1, .inl ⟨by unfold need; omega, .inl hrule, by omega, rfl⟩⟩

/-- A marked envelope has the text's length and the strip bit by R162. -/
theorem recovers_pack_marker (st : Straps) {s : List Byte} (hmod : s.length % 4 = 0) :
    Recovers st (pack s ++ [st.marker]).length (lastByte (pack s ++ [st.marker])) s.length true := by
  rw [lastByte_append, List.length_append, length_pack, List.length_singleton]
  exact ⟨s.length / 4, .inr (.inr (.inl ⟨by unfold need; omega, rfl, by omega, rfl⟩))⟩

/-- R162 gives back the length and the flag of ENVB's envelope, but for `COUNT` at lengths 3 mod 4. -/
theorem recovers_envbBytes {st : Straps} {s : List Byte} (hst : st.wf = true) (hs : validText s)
    (hrule : st.rem0Rule = .trailingZeroShorter ∨ s.length % 4 ≠ 3) :
    Recovers st (envbBytes st s).length (lastByte (envbBytes st s)) s.length (decide (EndsInAmbiguousSpace s)) := by
  by_cases hend : EndsInAmbiguousSpace s
  · have ⟨_, hmod, _⟩ := hend
    rw [envbBytes, if_pos hend, decide_eq_true hend]
    exact recovers_pack_marker st hmod
  · rw [envbBytes, if_neg hend, decide_eq_false hend]
    by_cases hmod : s.length % 4 = 3
    · exact recovers_pack_shorter hs hmod (hrule.resolve_right (not_not_intro hmod))
    · exact recovers_pack hst hs hmod hend

/-- A space's six bits are those of the padding. -/
theorem laneBit_append_space (s : List Byte) (t : Nat) : laneBit (s ++ [0x20]) t = laneBit s t := by
  obtain hlt | heq | hgt := Nat.lt_trichotomy (t / 6) s.length
  · rw [laneBit, List.getElem?_append_left hlt]
    rfl
  · rw [laneBit_of_le (s := s) (by omega), laneBit, heq, List.getElem?_concat_length]
    exact Nat.zero_testBit _
  · rw [laneBit_of_le (s := s) (by omega), laneBit_of_le (by rw [List.length_append, List.length_singleton]; omega)]

theorem validText_append_space {s : List Byte} (hs : validText s) : validText (s ++ [0x20]) :=
  List.forall_mem_append.2 ⟨hs, List.forall_mem_singleton.2 (by decide)⟩

/-- A text of length 3 mod 4 and the same text with one more space have the same packed buffer. -/
theorem isPacked_append_space {s : List Byte} (hs : validText s) (hmod : s.length % 4 = 3) :
    IsPacked (s ++ [0x20]) (pack s) := by
  obtain ⟨hlen, hbits⟩ := isPacked_pack hs
  refine ⟨?_, fun t ht => (hbits t ht).trans (laneBit_append_space s t).symm⟩
  rw [hlen, List.length_append, List.length_singleton]
  omega

/-- Read as one character more, the packed bytes of a text of length 3 mod 4 give one more space. -/
theorem unpack_pack_succ {s : List Byte} (hs : validText s) (hmod : s.length % 4 = 3) :
    unpack (pack s) (s.length + 1) = s ++ [0x20] := by
  have hspace := isUnpacked_of_isPacked (validText_append_space hs) (isPacked_append_space hs hmod)
  rw [List.length_append, List.length_singleton] at hspace
  exact isUnpacked_unique (isUnpacked_unpack _ _) hspace fun _ _ => rfl

end Sys2Proof.Machine

namespace Sys2Proof.Proofs

open Sys2Proof Sys2Proof.Machine

/-- Settles O30: U_MDET's test of the low six bits is the remainder by 64. -/
theorem mdetDetectsTrailingZero : Obligations.MdetDetectsTrailingZero := exec_mdet

/-- Settles O31: R162's cases cover every byte count, and U_LREC computes what each of them says, which makes their
length and strip bit unique. -/
theorem lrecRecoversTheLength : Obligations.LrecRecoversTheLength := by
  intro last s
  obtain ⟨n, strip, h⟩ := exists_recovers s.straps s.len last
  exact ⟨n, strip, h, fun _ _ => recovers_unique h, exec_lrec_of_overMax h, exec_lrec_of_withinMax h⟩

/-- Settles O32: the checks of ENC, and then the marker exactly where the text's last character makes the low six bits
of the last packed byte zero. -/
theorem envbAnswers : Obligations.EnvbAnswers := by
  intro s
  refine ⟨exec_envb_of_overMax, ?_, ?_⟩
  · intro i x hmax hx hbad hleast
    exact exec_envb_of_firstInvalid hmax (firstInvalid_eq_some_of_least hx hbad hleast) hx
  · intro hmax hs
    have hanswer := exec_envb_of_validText hmax hs
    refine ⟨pack s.src, isPacked_pack hs, fun hend => ?_, fun hend => ?_⟩
    · rwa [envbBytes, if_pos hend, decide_eq_true hend] at hanswer
    · rwa [envbBytes, if_neg hend, decide_eq_false hend] at hanswer

/-- Settles O33: the cases of O31, on the number of bytes and the last of them. -/
theorem envpAnswers : Obligations.EnvpAnswers := by
  intro s
  rw [← lastByte_eq_getLastD]
  obtain ⟨n, strip, h⟩ := exists_recovers s.straps s.src.length (lastByte s.src)
  exact ⟨n, strip, h, exec_envp_of_overMax h, exec_envp_of_withinMax h⟩

/-- Settles O34: the two forms of R27 are ENVR's two checks. -/
theorem envrAnswersOrFaults : Obligations.EnvrAnswersOrFaults := by
  intro s
  refine ⟨exec_envr_of_overMax, ?_, ?_, exec_envr_of_not_envelope⟩
  · intro hmax hlen
    exact ⟨_, isUnpacked_unpack _ _, exec_decoder_of_eq_need (.inr (.inr (.inr rfl))) hmax hlen⟩
  · intro body hmax hsrc hbody hmod
    exact ⟨_, isUnpacked_unpack _ _, exec_envr_of_marked hmax hsrc hbody hmod⟩

/-- Settles O36: the last packed byte ends in two padding bits, which `MARKER` does not. -/
theorem markerIsNeverAResidue : Obligations.MarkerIsNeverAResidue := by
  intro st s hst hs hmod
  have hne : pack s ≠ [] := List.ne_nil_of_length_pos (by rw [length_pack]; unfold need; omega)
  have hrecovers : Recovers st (pack s).length (lastByte (pack s)) s.length false :=
    recovers_pack hst hs (by omega) fun ⟨_, h0, _⟩ => by omega
  rw [getLast?_eq_some_lastByte hne, uLrec_of_recovers hrecovers]
  exact ⟨fun h => lastByte_pack_ne_marker hst hs hmod (Option.some.inj h), rfl, rfl⟩

/-- Settles O37: ENVR cuts off what ENVB appended, and UNPACK undoes PACK; U_LREC has no part in it. -/
theorem renderingAnEnvelopeGivesTheText : Obligations.RenderingAnEnvelopeGivesTheText := fun _ hs hmax =>
  ⟨_, _, exec_envb_of_validText hmax hs, exec_envr_envbBytes hs rfl rfl hmax⟩

/-- Settles O38: R162's cases on ENVB's bytes, by the remainder of the text's length. -/
theorem rawBytesRoundTripRecoversTheLength : Obligations.RawBytesRoundTripRecoversTheLength := by
  intro s hst hs hmax
  refine ⟨_, _, exec_envb_of_validText hmax hs, fun hrule => ?_, fun hrule hmod hmax' => ?_⟩
  · exact exec_envp_of_withinMax (s := { s with src := envbBytes s.straps s.src })
      (recovers_envbBytes hst hs hrule) hmax
  · have hend : ¬ EndsInAmbiguousSpace s.src := fun ⟨_, h0, _⟩ => by omega
    rw [envbBytes, if_neg hend, decide_eq_false hend]
    refine ⟨exec_envp_of_withinMax (s := { s with src := pack s.src }) (recovers_pack_count _ hmod hrule) hmax', ?_⟩
    have hlen : (pack s.src).length = need (s.src.length + 1) := by
      rw [length_pack]
      unfold need
      omega
    have hrender := exec_decoder_of_eq_need (s := { s with src := pack s.src, len := s.src.length + 1 })
      (.inr (.inr (.inr rfl))) hmax' hlen
    rwa [unpack_pack_succ hs hmod] at hrender

end Sys2Proof.Proofs
end

section
/-! PROOFS. The statements of 60_exceptions.md: what any command can do (CAPACITY, R208; the broken contracts, R206; the
other outcomes, R201 to R205), the ports its response carries (R201), and several instances (R214). -/

namespace Sys2Proof.Machine

/-! ## The ports a response carries (60_exceptions.md R201) -/

/-- What the port delivers to the host, if it carries a value (10_state.md R23, R29). -/
def Response.portValue (r : Response) : Port → Option PortValue
  | .status => r.status.map .status
  | .idx => r.idx.map .idx
  | .code => r.code.map .code
  | .olen => r.olen.map .olen
  | .flag => r.flag.map .flag
  | .m => r.m.map .m
  | .wout => r.wout.map .wout
  | .dst => r.dst.map .dst

theorem readPort_eq_ok_iff (r : Response) (p : Port) (v : PortValue) :
    readPort r p = .ok v ↔ r.portValue p = some v := by
  have hcarry (o : Option PortValue) :
      (match o with
        | some x => Except.ok x
        | none => .error (Fault.portHasNoValue p)) = .ok v ↔ o = some v := by
    cases o <;> simp
  cases p <;> exact hcarry _

/-- `STATUS` and the ports `ps` can be read, and no other. -/
def CarriesExactly (r : Response) (ps : List Port) : Prop :=
  ∀ p, (∃ v, readPort r p = .ok v) ↔ (p = .status ∨ p ∈ ps)

theorem carriesExactly_of_isSome {r : Response} {ps : List Port}
    (h : ∀ p, (r.portValue p).isSome = decide (p = .status ∨ p ∈ ps)) : CarriesExactly r ps := fun p => by
  simp only [readPort_eq_ok_iff, ← Option.isSome_iff_exists, h, decide_eq_true_iff]

theorem carriesExactly_errorResponse (c : BitVec 4) : CarriesExactly (errorResponse c) [] :=
  carriesExactly_of_isSome fun p => by cases p <;> rfl

theorem carriesExactly_invalidCharacterResponse (j : Nat) (x : Byte) :
    CarriesExactly (invalidCharacterResponse j x) [.idx, .code] :=
  carriesExactly_of_isSome fun p => by cases p <;> rfl

theorem carriesExactly_bufferResponse (b : List Byte) (n : Nat) : CarriesExactly (bufferResponse b n) [.dst, .olen] :=
  carriesExactly_of_isSome fun p => by cases p <;> rfl

theorem carriesExactly_envelopeResponse (b : List Byte) (n : Nat) (f : Bool) :
    CarriesExactly (envelopeResponse b n f) [.dst, .olen, .flag] :=
  carriesExactly_of_isSome fun p => by cases p <;> rfl

/-! ## CAPACITY (60_exceptions.md R208, R209) -/

/-- The character count of the command, if it has one, is within `MAX_LEN`. -/
def FitsMax (i : Instr) (s : State) : Prop := ∀ n, charCount i s = some n → withinMax s.straps n = true

theorem fitsMax_or_overMax (i : Instr) (s : State) :
    FitsMax i s ∨ ∃ n, charCount i s = some n ∧ withinMax s.straps n = false := by
  by_cases h : FitsMax i s
  · exact .inl h
  · simp only [FitsMax, not_forall, Bool.not_eq_true] at h
    obtain ⟨n, hn, hover⟩ := h
    exact .inr ⟨n, hn, hover⟩

/-- What U_LREC computes is one of R162's cases. -/
theorem recovers_uLrec (st : Straps) (nb : Nat) (last : Byte) :
    Recovers st nb last (uLrec st nb last).length (uLrec st nb last).strip := by
  obtain ⟨n, strip, h⟩ := exists_recovers st nb last
  rwa [uLrec_of_recovers h]

/-- Every command with a character count checks it first. -/
theorem exec_of_overMax {i : Instr} {s : State} {n : Nat} (hn : charCount i s = some n)
    (hover : withinMax s.straps n = false) : exec i s = .next (answered s (errorResponse 6)) := by
  cases i with
  | genc | gdec | mdet => cases hn
  | enc => cases hn; exact exec_enc_of_overMax hover
  | encu => cases hn; exact exec_encu_of_overMax hover
  | dec => cases hn; exact exec_dec_of_overMax hover
  | decu => cases hn; exact exec_decu_of_overMax hover
  | decs => cases hn; exact exec_decs_eq_exec_dec.trans (exec_dec_of_overMax hover)
  | envb => cases hn; exact exec_envb_of_overMax hover
  | envp => cases hn; exact exec_envp_of_overMax (recovers_uLrec _ _ _) hover
  | envr => cases hn; exact exec_envr_of_overMax hover
  | lrec last => cases hn; exact exec_lrec_of_overMax (recovers_uLrec _ _ _) hover

/-! ## Broken contracts (60_exceptions.md R206) -/

/-- The caller's duty of R233 is broken in the three cases of R206. -/
theorem contractHeld_eq_false_iff (i : Instr) (s : State) :
    contractHeld i s = false ↔
      (i = .encu ∧ ¬ validText s.src) ∨
      (i = .decu ∧ 0 < s.len ∧ s.src.length ≠ need s.len) ∨
      (i = .envr ∧ envelopeOk s.straps { envBytes := s.src, envLen := s.len } = false) := by
  cases i with
  | encu => simp [contractHeld, ← firstInvalid_eq_none_iff_validText, Option.isSome_iff_ne_none]
  | decu => simp [contractHeld, Nat.pos_iff_ne_zero]
  | envr => simp [contractHeld]
  | enc | dec | decs | envb | envp | genc | gdec | mdet | lrec => simp [contractHeld]

theorem exec_envr_of_envelopeOk_eq_false {s : State} (h : withinMax s.straps s.len = true)
    (henv : envelopeOk s.straps { envBytes := s.src, envLen := s.len } = false) :
    exec .envr s = .fault .uncheckedContract := by
  rw [Bool.eq_false_iff, Ne, envelopeOk_iff] at henv
  obtain ⟨hplain, hmarked⟩ := not_or.1 henv
  refine exec_envr_of_not_envelope h hplain fun ⟨body, hsrc, hbody, hmod⟩ => hmarked ⟨?_, hmod, ?_⟩
  · rw [hsrc, List.length_append, hbody, List.length_singleton]
  · rw [hsrc, List.getLast?_concat]

theorem exec_of_contractHeld_eq_false {i : Instr} {s : State} (hfits : FitsMax i s)
    (hbroken : contractHeld i s = false) : exec i s = .fault .uncheckedContract := by
  rcases (contractHeld_eq_false_iff i s).1 hbroken with ⟨rfl, hbad⟩ | ⟨rfl, hpos, hlen⟩ | ⟨rfl, henv⟩
  · exact exec_encu_of_not_validText (hfits _ rfl) hbad
  · exact exec_decu_of_ne_need (hfits _ rfl) hpos hlen
  · exact exec_envr_of_envelopeOk_eq_false (hfits _ rfl) henv

/-! ## The answers of a command within `MAX_LEN` (60_exceptions.md R201 to R205) -/

/-- The responses of a command within `MAX_LEN` whose contract is kept. -/
inductive AnswerWithinMax (i : Instr) : Response → Prop where
  | ok {r : Response} (hstatus : r.status = some 0) (hports : CarriesExactly r (portsOnOk i)) : AnswerWithinMax i r
  | invalidCharacter (hi : i = .enc ∨ i = .envb) (j : Nat) (x : Byte) : AnswerWithinMax i (invalidCharacterResponse j x)
  | invalidBytesLength (hi : i = .dec ∨ i = .decs) : AnswerWithinMax i (errorResponse 2)

theorem exec_checkedDecoder_of_ne_need {i : Instr} {s : State} (hi : i = .dec ∨ i = .decs)
    (h : withinMax s.straps s.len = true) (hlen : s.src.length ≠ need s.len) :
    exec i s = .next (answered s (errorResponse 2)) := by
  rcases hi with rfl | rfl
  · exact exec_dec_of_ne_need h hlen
  · exact exec_decs_eq_exec_dec.trans (exec_dec_of_ne_need h hlen)

/-- A text is valid, or the search reports one of its indices, where `CODE` takes its value. -/
theorem validText_or_firstInvalid (b : List Byte) :
    validText b ∨ ∃ j x, firstInvalid b = some j ∧ b[j]? = some x := by
  cases hfirst : firstInvalid b with
  | none => exact .inl ((firstInvalid_eq_none_iff_validText b).1 hfirst)
  | some j =>
    obtain ⟨x, hx, -, -⟩ := (firstInvalid_eq_some_iff b j).1 hfirst
    exact .inr ⟨j, x, rfl, hx⟩

theorem exec_of_contractHeld {i : Instr} {s : State} (hfits : FitsMax i s) (hheld : contractHeld i s = true) :
    ∃ r, exec i s = .next (answered s r) ∧ AnswerWithinMax i r := by
  cases i with
  | enc =>
    rcases validText_or_firstInvalid s.src with htext | ⟨j, x, hfirst, hx⟩
    · exact ⟨_, exec_enc_of_validText (hfits _ rfl) htext, .ok rfl (carriesExactly_bufferResponse _ _)⟩
    · exact ⟨_, exec_enc_of_firstInvalid (hfits _ rfl) hfirst hx, .invalidCharacter (.inl rfl) j x⟩
  | envb =>
    rcases validText_or_firstInvalid s.src with htext | ⟨j, x, hfirst, hx⟩
    · exact ⟨_, exec_envb_of_validText (hfits _ rfl) htext, .ok rfl (carriesExactly_envelopeResponse _ _ _)⟩
    · exact ⟨_, exec_envb_of_firstInvalid (hfits _ rfl) hfirst hx, .invalidCharacter (.inr rfl) j x⟩
  | encu =>
    have htext := (firstInvalid_eq_none_iff_validText _).1 (Option.isNone_iff_eq_none.1 hheld)
    exact ⟨_, exec_encu_of_validText (hfits _ rfl) htext, .ok rfl (carriesExactly_bufferResponse _ _)⟩
  | dec | decs =>
    by_cases hlen : s.src.length = need s.len
    · exact ⟨_, exec_decoder_of_eq_need (by simp) (hfits _ rfl) hlen, .ok rfl (carriesExactly_bufferResponse _ _)⟩
    · exact ⟨_, exec_checkedDecoder_of_ne_need (by simp) (hfits _ rfl) hlen, .invalidBytesLength (by simp)⟩
  | decu =>
    simp only [contractHeld, Bool.or_eq_true, decide_eq_true_eq] at hheld
    rcases hheld with hzero | hlen
    · exact ⟨_, exec_decu_of_len_eq_zero hzero, .ok rfl (carriesExactly_bufferResponse _ _)⟩
    · exact ⟨_, exec_decoder_of_eq_need (by simp) (hfits _ rfl) hlen, .ok rfl (carriesExactly_bufferResponse _ _)⟩
  | envp =>
    exact ⟨_, exec_envp_of_withinMax (recovers_uLrec _ _ _) (hfits _ rfl),
      .ok rfl (carriesExactly_envelopeResponse _ _ _)⟩
  | envr =>
    have hcap : overCapacity s.straps s.len = false := Bool.eq_false_iff.2 (not_overCapacity (hfits _ rfl))
    obtain ⟨d, hanswer, -⟩ := exec_envr_of_envelopeOk hcap hheld
    exact ⟨_, hanswer, .ok rfl (carriesExactly_bufferResponse _ _)⟩
  | genc km1 vin =>
    exact ⟨_, exec_genc km1 vin s, .ok rfl (carriesExactly_of_isSome fun p => by cases p <;> rfl)⟩
  | gdec km1 yin =>
    exact ⟨_, exec_gdec km1 yin s, .ok rfl (carriesExactly_of_isSome fun p => by cases p <;> rfl)⟩
  | mdet last => exact ⟨_, exec_mdet last s, .ok rfl (carriesExactly_of_isSome fun p => by cases p <;> rfl)⟩
  | lrec last =>
    exact ⟨_, exec_lrec_of_withinMax (recovers_uLrec _ _ _) (hfits _ rfl),
      .ok rfl (carriesExactly_of_isSome fun p => by cases p <;> rfl)⟩

/-! ## All a command can do -/

/-- The outcomes of the command `i` on `s`, with what each of them tells: CAPACITY alone, a response within `MAX_LEN`, or
the fault of a broken contract. -/
inductive ExecOutcome (i : Instr) (s : State) : Result → Prop where
  | capacity {n : Nat} (hn : charCount i s = some n) (hover : withinMax s.straps n = false) :
      ExecOutcome i s (.next (answered s (errorResponse 6)))
  | answer {r : Response} (hfits : FitsMax i s) (hheld : contractHeld i s = true) (hanswer : AnswerWithinMax i r) :
      ExecOutcome i s (.next (answered s r))
  | brokenContract (hfits : FitsMax i s) (hbroken : contractHeld i s = false) :
      ExecOutcome i s (.fault .uncheckedContract)

theorem exec_outcome (i : Instr) (s : State) : ExecOutcome i s (exec i s) := by
  rcases fitsMax_or_overMax i s with hfits | ⟨n, hn, hover⟩
  · cases hcontract : contractHeld i s with
    | true =>
      obtain ⟨r, hexec, hanswer⟩ := exec_of_contractHeld hfits hcontract
      exact hexec ▸ .answer hfits hcontract hanswer
    | false => exact exec_of_contractHeld_eq_false hfits hcontract ▸ .brokenContract hfits hcontract
  · exact exec_of_overMax hn hover ▸ .capacity hn hover

/-- A command faults exactly when its count is within `MAX_LEN` and its contract is broken. -/
theorem exec_eq_fault_iff (i : Instr) (s : State) (f : Fault) :
    exec i s = .fault f ↔ f = .uncheckedContract ∧ FitsMax i s ∧ contractHeld i s = false := by
  constructor
  · intro h
    have houtcome := exec_outcome i s
    rw [h] at houtcome
    cases houtcome with
    | brokenContract hfits hbroken => exact ⟨rfl, hfits, hbroken⟩
  · rintro ⟨rfl, hfits, hbroken⟩
    exact exec_of_contractHeld_eq_false hfits hbroken

/-- A command that answers gives CAPACITY alone, or a response within `MAX_LEN`. -/
theorem resp_of_exec_eq_next {i : Instr} {s t : State} (h : exec i s = .next t) :
    (t.resp = errorResponse 6 ∧ ∃ n, charCount i s = some n ∧ withinMax s.straps n = false) ∨
    AnswerWithinMax i t.resp := by
  have houtcome := exec_outcome i s
  rw [h] at houtcome
  cases houtcome with
  | capacity hn hover => exact .inl ⟨rfl, _, hn, hover⟩
  | answer _ _ hanswer => exact .inr hanswer

namespace AnswerWithinMax

variable {i : Instr} {r : Response}

/-- Codes 0, 1 and 2, the last two from the checked commands (60_exceptions.md R202, R203). -/
theorem status_cases (h : AnswerWithinMax i r) :
    r.status = some 0 ∨ (r.status = some 1 ∧ (i = .enc ∨ i = .envb)) ∨ (r.status = some 2 ∧ (i = .dec ∨ i = .decs)) := by
  cases h with
  | ok hstatus _ => exact .inl hstatus
  | invalidCharacter hi _ _ => exact .inr (.inl ⟨rfl, hi⟩)
  | invalidBytesLength hi => exact .inr (.inr ⟨rfl, hi⟩)

theorem status_ne_capacity (h : AnswerWithinMax i r) : r.status ≠ some 6 := by
  rcases h.status_cases with h | ⟨h, -⟩ | ⟨h, -⟩ <;> rw [h] <;> decide

end AnswerWithinMax

/-- The ports a response of the command `i` carries besides `STATUS`, by its status. -/
def portsOfStatus (i : Instr) (c : Option (BitVec 4)) : List Port :=
  if c = some 0 then portsOnOk i else if c = some 1 then [.idx, .code] else []

theorem carriesExactly_of_exec_eq_next {i : Instr} {s t : State} (h : exec i s = .next t) :
    CarriesExactly t.resp (portsOfStatus i t.resp.status) := by
  rcases resp_of_exec_eq_next h with ⟨hcap, -⟩ | hanswer
  · rw [hcap]
    exact carriesExactly_errorResponse 6
  · generalize t.resp = r at hanswer
    cases hanswer with
    | ok hstatus hports => rwa [portsOfStatus, if_pos hstatus]
    | invalidCharacter _ j x => exact carriesExactly_invalidCharacterResponse j x
    | invalidBytesLength _ => exact carriesExactly_errorResponse 2

/-! ## Several instances (60_exceptions.md R214) -/

/-- `sys'` is what the instances of `sys` become when number `j` runs alone for `n j` steps. -/
def EachRuns (n : Nat → Nat) (sys sys' : List State) : Prop :=
  sys'.length = sys.length ∧
  ∀ (j : Nat) (s : State), sys[j]? = some s → ∃ s', sys'[j]? = some s' ∧ core.run (n j) s = .next s'

theorem EachRuns.refl (sys : List State) : EachRuns (fun _ => 0) sys sys := ⟨rfl, fun _ s hs => ⟨s, hs, rfl⟩⟩

theorem EachRuns.trans {m n : Nat → Nat} {a b c : List State} (hab : EachRuns m a b) (hbc : EachRuns n b c) :
    EachRuns (fun j => m j + n j) a c := by
  obtain ⟨hlen, hruns⟩ := hab
  obtain ⟨hlen', hruns'⟩ := hbc
  refine ⟨hlen'.trans hlen, fun j s hs => ?_⟩
  obtain ⟨s₁, hs₁, hrun⟩ := hruns j s hs
  obtain ⟨s₂, hs₂, hrun'⟩ := hruns' j s₁ hs₁
  exact ⟨s₂, hs₂, run_add_eq_next_iff.2 ⟨s₁, hrun, hrun'⟩⟩

/-- A move is one step of number `k` alone, and no step of the others. -/
theorem eachRuns_of_stepInstance {k : Nat} {sys sys' : List State} (h : stepInstance k sys = .next sys') :
    EachRuns (([k].count ·)) sys sys' := by
  rcases stepInstance_cases h with ⟨hnone, rfl⟩ | ⟨s, s', hs, hstep, rfl⟩
  · refine ⟨rfl, fun j t ht => ⟨t, ht, ?_⟩⟩
    beta_reduce
    have hne : k ≠ j := by
      rintro rfl
      exact nomatch hnone.symm.trans ht
    rw [List.count_singleton, if_neg (by simpa using hne)]
    exact run_zero t
  · refine ⟨List.length_set, fun j t ht => ?_⟩
    beta_reduce
    by_cases hkj : k = j
    · subst hkj
      obtain rfl := Option.some.inj (hs.symm.trans ht)
      obtain ⟨hk, -⟩ := List.getElem?_eq_some_iff.1 hs
      rw [List.count_singleton_self, run_one]
      exact ⟨s', List.getElem?_set_self hk, hstep⟩
    · rw [List.count_singleton, if_neg (by simpa using hkj)]
      exact ⟨t, (List.getElem?_set_ne hkj).trans ht, run_zero t⟩

theorem runSchedule_cons_eq_next_iff {k : Nat} {ks : List Nat} {sys sys' : List State} :
    runSchedule (k :: ks) sys = .next sys' ↔ ∃ m, stepInstance k sys = .next m ∧ runSchedule ks m = .next sys' := by
  cases h : stepInstance k sys <;> simp [runSchedule, h]

end Sys2Proof.Machine

namespace Sys2Proof.Proofs

open Sys2Proof Sys2Proof.Machine

/-- Settles O40: the count is checked first, and no response within `MAX_LEN` has STATUS 6. -/
theorem capacityIsRaisedExactly : Obligations.CapacityIsRaisedExactly := by
  intro i s
  refine ⟨fun n => exec_of_overMax, fun t h hstatus => ?_⟩
  rcases resp_of_exec_eq_next h with ⟨-, hover⟩ | hanswer
  · exact hover
  · exact absurd hstatus hanswer.status_ne_capacity

/-- Settles O41: a fault is a broken contract within `MAX_LEN`, and R206's cases are the three contracts, each with the
character count of its command. -/
theorem faultsAreExactlyBrokenContracts : Obligations.FaultsAreExactlyBrokenContracts := by
  refine fun i s => ⟨fun f => ?_, exec_ne_refused i s⟩
  rw [exec_eq_fault_iff, contractHeld_eq_false_iff]
  refine and_congr_right fun _ => ?_
  constructor
  · rintro ⟨hfits, ⟨rfl, hbad⟩ | ⟨rfl, hpos, hlen⟩ | ⟨rfl, henv⟩⟩
    · exact .inl ⟨rfl, hfits _ rfl, hbad⟩
    · exact .inr (.inl ⟨rfl, hfits _ rfl, hpos, hlen⟩)
    · exact .inr (.inr ⟨rfl, hfits _ rfl, henv⟩)
  · rintro (⟨rfl, hmax, hbad⟩ | ⟨rfl, hmax, hpos, hlen⟩ | ⟨rfl, hmax, henv⟩)
    · exact ⟨fun n hn => Option.some.inj hn ▸ hmax, .inl ⟨rfl, hbad⟩⟩
    · exact ⟨fun n hn => Option.some.inj hn ▸ hmax, .inr (.inl ⟨rfl, hpos, hlen⟩)⟩
    · exact ⟨fun n hn => Option.some.inj hn ▸ hmax, .inr (.inr ⟨rfl, henv⟩)⟩

/-- Settles O43: CAPACITY comes from a character count, and the responses within `MAX_LEN` have the other statuses. -/
theorem statusesCommandsProduce : Obligations.StatusesCommandsProduce := by
  intro i s t h
  rcases resp_of_exec_eq_next h with ⟨hcap, n, hn, -⟩ | hanswer
  · exact .inr (.inr (.inr ⟨congrArg Response.status hcap, hn ▸ rfl⟩))
  · rcases hanswer.status_cases with hok | hchar | hbytes
    · exact .inl hok
    · exact .inr (.inl hchar)
    · exact .inr (.inr (.inl hbytes))

/-- Settles O44: the ports by status, read off for STATUS 0, 1 and any other. -/
theorem responsesCarryExactlyTheListedPorts : Obligations.ResponsesCarryExactlyTheListedPorts := by
  intro i s t h
  have hports := carriesExactly_of_exec_eq_next h
  refine ⟨fun h0 => ?_, fun h1 => ?_, fun h0 h1 => ?_⟩
  · rwa [portsOfStatus, if_pos h0] at hports
  · simpa [CarriesExactly, portsOfStatus, h1] using hports
  · rw [portsOfStatus, if_neg h0, if_neg h1] at hports
    simpa [CarriesExactly] using hports

/-- Settles O49, by induction on the schedule: its first move is one step of one of the instances, and the steps each of
them takes add up to its count. -/
theorem instancesAreIndependent : Obligations.InstancesAreIndependent := by
  intro ks sys sys' hrun
  change EachRuns (ks.count ·) sys sys'
  induction ks generalizing sys with
  | nil =>
    obtain rfl := Host.Outcome.next.inj hrun
    exact .refl sys
  | cons k ks ih =>
    obtain ⟨m, hfirst, hrest⟩ := runSchedule_cons_eq_next_iff.1 hrun
    have hruns := (eachRuns_of_stepInstance hfirst).trans (ih m hrest)
    simpa only [← List.count_append, List.singleton_append] using hruns

end Sys2Proof.Proofs
end

section
/-! PROOFS. The statements of 70_reset_and_hazards.md: a change of `SRC` (section 2, R232), the caller's duties (R233,
R235), and termination (section 3, R237). -/

namespace Sys2Proof.Machine

/-! ## The host's act as the step (70_reset_and_hazards.md R232) -/

/-- An act of the host that does not have to wait for a command in progress is the next step. -/
theorem step_eq_hostMove {s : State} {a : HostAct} {rest : List HostAct} (hhost : s.host = a :: rest)
    (hmoves : (a.waits && s.cw.isSome) = false) : step s = hostMove a { s with host := rest } := by
  have hnext : nextHostAct s = some a := by simp [nextHostAct, hhost, hmoves]
  rw [step, systemMove, hnext, hhost, List.tail_cons]

theorem hostChangeSrc_of_running (s : State) (b : List Byte) (hcw : s.cw ≠ none) :
    hostChangeSrc b s = .refused .srcChangedWhileRunning := by
  obtain ⟨w, hw⟩ := Option.ne_none_iff_exists'.1 hcw
  rw [hostChangeSrc, hw]

theorem hostChangeSrc_of_idle (s : State) (b : List Byte) (hcw : s.cw = none) :
    hostChangeSrc b s = .next { s with src := b } := by
  rw [hostChangeSrc, hcw]

/-! ## Answered, or a broken contract (70_reset_and_hazards.md R233, R237) -/

/-- A command whose contract is kept is answered: with CAPACITY over `MAX_LEN`, and within it with its response. -/
theorem exec_answers_of_contractHeld {i : Instr} {s : State} (hheld : contractHeld i s = true) :
    ∃ r, exec i s = .next (answered s r) := by
  rcases fitsMax_or_overMax i s with hfits | ⟨n, hn, hover⟩
  · obtain ⟨r, hanswer, -⟩ := exec_of_contractHeld hfits hheld
    exact ⟨r, hanswer⟩
  · exact ⟨_, exec_of_overMax hn hover⟩

theorem AnswerWithinMax.status_ne_none {i : Instr} {r : Response} (h : AnswerWithinMax i r) : r.status ≠ none := by
  rcases h.status_cases with h | ⟨h, -⟩ | ⟨h, -⟩ <;> rw [h] <;> exact Option.some_ne_none _

/-- The ways a command terminates: a response with a status and an otherwise unchanged state, or the fault of a broken
contract. -/
def Terminates (s : State) (o : Result) : Prop :=
  (∃ r, r.status ≠ none ∧ o = .next (answered s r)) ∨ o = .fault .uncheckedContract

theorem ExecOutcome.terminates {i : Instr} {s : State} {o : Result} (h : ExecOutcome i s o) : Terminates s o := by
  cases h with
  | capacity _ _ => exact .inl ⟨_, Option.some_ne_none _, rfl⟩
  | answer _ _ hanswer => exact .inl ⟨_, hanswer.status_ne_none, rfl⟩
  | brokenContract _ _ => exact .inr rfl

/-- Whatever word is on the port, the block's move answers it or faults on a broken contract: a reserved `OP` gets
ILLEGAL_OP, and any other is a command. -/
theorem blockMove_terminates {s : State} {w : CmdWord} (hcw : s.cw = some w) : Terminates s (blockMove s) := by
  cases hd : decode w with
  | ok i => exact blockMove_of_decode_ok hcw hd ▸ (exec_outcome i s).terminates
  | error e => exact .inl ⟨_, Option.some_ne_none _, blockMove_of_decode_error hcw hd⟩

/-- Two steps from an idle state with a command to issue that its port can carry: the block moves on the presented
command. -/
theorem run_two_of_issue {s : State} {c : Command} {rest : List HostAct} (hcw : s.cw = none)
    (hhost : s.host = .issue c :: rest) (hwf : c.wf s.straps = true)
    (hwaits : ∀ a, rest.head? = some a → a.waits = true) : core.run 2 s = blockMove (presented c rest s) := by
  have hissue : step s = .next (presented c rest s) := (step_of_issue_eq_next_iff hcw hhost).2 ⟨hwf, rfl⟩
  have hblock : step (presented c rest s) = blockMove (presented c rest s) := step_eq_blockMove_of_waits rfl hwaits
  rw [run_succ_of_next hissue, run_one, hblock]

end Sys2Proof.Machine

namespace Sys2Proof.Proofs

open Sys2Proof Sys2Proof.Machine

/-- Settles O12: the change waits for nothing, so it is the next step, and `hostChangeSrc` asks whether a command is in
progress. -/
theorem changingSrcWhileRunningIsRefused : Obligations.ChangingSrcWhileRunningIsRefused := by
  intro s b rest hhost
  have hstep : step s = hostChangeSrc b { s with host := rest } := step_eq_hostMove hhost rfl
  rw [hstep]
  exact ⟨hostChangeSrc_of_running { s with host := rest } b, hostChangeSrc_of_idle { s with host := rest } b⟩

/-- Settles O39: cut by the marker, `SRC` is the `need(LEN)` bytes that ENVR unpacks and DECU asks for; uncut, it is one
byte too long for DECU. -/
theorem decuMustBeGivenTheCutBytes : Obligations.DecuMustBeGivenTheCutBytes := by
  intro s hmax hmod hlen hlast
  obtain ⟨body, hsrc⟩ := List.getLast?_eq_some_iff.1 hlast
  have hcut : s.src.dropLast = body := by rw [hsrc, List.dropLast_concat]
  have hbody : body.length = need s.len := by rw [← hcut, List.length_dropLast, hlen, Nat.add_sub_cancel]
  rw [hcut]
  refine ⟨⟨_, exec_envr_of_marked hmax hsrc hbody hmod, ?_⟩, fun hpos => ?_, exec_decu_of_len_eq_zero⟩
  · exact exec_decoder_of_eq_need (s := { s with src := body }) (.inr (.inl rfl)) hmax hbody
  · exact exec_decu_of_ne_need hmax hpos (by omega)

/-- Settles O42: a kept contract leaves a command only CAPACITY and the responses within `MAX_LEN`. -/
theorem keptContractsNeverFault : Obligations.KeptContractsNeverFault := fun _ _ => exec_answers_of_contractHeld

/-- Settles O48: the first step presents the command, and the second is the block's move on it. -/
theorem everyCommandTerminates : Obligations.EveryCommandTerminates := by
  intro s c rest hcw hhost hwf hwaits
  rw [run_two_of_issue hcw hhost hwf hwaits]
  rcases blockMove_terminates (s := presented c rest s) rfl with ⟨r, hstatus, hanswer⟩ | hfault
  · exact .inl ⟨_, hanswer, rfl, rfl, hstatus⟩
  · exact .inr hfault

end Sys2Proof.Proofs
end

section
/-! PROOFS. The invariant of Safety.lean: reset meets it (70_reset_and_hazards.md section 1, R231) and every step keeps it;
the lengths it bounds (10_state.md R22, R23); and the frame of every command (60_exceptions.md R201). -/

namespace Sys2Proof.Machine

/-! ## Lengths within `MAX_LEN` (00_scope.md R8, 70_reset_and_hazards.md R231) -/

theorem overCapacity_eq_false_iff (st : Straps) (n : Nat) : overCapacity st n = false ↔ withinMax st n = true := by
  rw [← Bool.not_eq_true, overCapacity_iff, Bool.not_eq_false]

theorem withinMax_of_le {st : Straps} {m n : Nat} (hle : m ≤ n) (h : withinMax st n = true) : withinMax st m = true := by
  unfold withinMax at h ⊢
  cases hmax : st.maxLen with
  | none => rfl
  | some k =>
    simp only [hmax, decide_eq_true_eq] at h ⊢
    exact hle.trans h

/-- A port that can carry `MAX_LEN` can carry every length within it. -/
theorem lenFits_of_withinMax {st : Straps} {n : Nat} (hst : st.wf = true) (h : withinMax st n = true) :
    st.lenFits n = true := by
  have hlengths : st.lengthsOk = true := (Bool.and_eq_true_iff.1 hst).2
  unfold Straps.lengthsOk at hlengths
  unfold Straps.lenFits Straps.lenWidth
  unfold withinMax at h
  cases hmax : st.maxLen with
  | none => rfl
  | some k =>
    cases hwidth : st.wLen with
    | none => rfl
    | some w =>
      simp only [hmax, hwidth, decide_eq_true_eq] at hlengths h ⊢
      exact h.trans_lt hlengths

/-! ## The responses the block can give -/

section
variable {st : Straps}

theorem responseOk_errorResponse {c : Status}
    (hc : c = .invalidBytesLength ∨ c = .illegalOp ∨ c = .capacity) : responseOk st (errorResponse c.toCode) :=
  .inr (.inr (.inr ⟨c, hc, rfl⟩))

/-- The character the search reports is invalid, and its index is below the text's length. -/
theorem responseOk_invalidCharacterResponse {b : List Byte} {j : Nat} {x : Byte} (hmax : withinMax st b.length = true)
    (hfirst : firstInvalid b = some j) (hx : b[j]? = some x) : responseOk st (invalidCharacterResponse j x) := by
  obtain ⟨hj, -⟩ := List.getElem?_eq_some_iff.1 hx
  obtain ⟨y, hy, hbad, -⟩ := (firstInvalid_eq_some_iff b j).1 hfirst
  obtain rfl : x = y := Option.some.inj (hx.symm.trans hy)
  exact .inr (.inr (.inl ⟨j, x, rfl, (overCapacity_eq_false_iff st j).2 (withinMax_of_le hj.le hmax), hbad⟩))

/-- An OK response without `DST` or without `FLAG` carries no envelope. -/
theorem responseOk_of_no_envelope {r : Response} (hstatus : r.status = some 0) (hinfo : r.idx = none ∧ r.code = none)
    (holen : ∀ n, r.olen = some n → withinMax st n = true) (hm : ∀ k, r.m = some k → k ≠ 0)
    (hnone : r.dst = none ∨ r.flag = none) : responseOk st r := by
  obtain ⟨hidx, hcode⟩ := hinfo
  refine .inr (.inl ⟨hstatus, hidx, hcode, fun n hn => (overCapacity_eq_false_iff st n).2 (holen n hn), hm, ?_⟩)
  intro b n f hb _ hf
  rcases hnone with hdst | hflag
  · exact nomatch hdst.symm.trans hb
  · exact nomatch hflag.symm.trans hf

theorem responseOk_bufferResponse {n : Nat} (b : List Byte) (hn : withinMax st n = true) :
    responseOk st (bufferResponse b n) :=
  responseOk_of_no_envelope rfl ⟨rfl, rfl⟩ (fun _ h => Option.some.inj h ▸ hn) nofun (.inr rfl)

theorem responseOk_envelopeResponse {b : List Byte} {n : Nat} (f : Bool) (hn : withinMax st n = true)
    (henv : envelopeOk st { envBytes := b, envLen := n } = true) : responseOk st (envelopeResponse b n f) := by
  refine .inr (.inl ⟨rfl, rfl, rfl, fun k hk => ?_, nofun, fun b' n' f' hb hn' _ => ?_⟩)
  · obtain rfl := Option.some.inj hk
    exact (overCapacity_eq_false_iff st n).2 hn
  · obtain rfl := Option.some.inj hb
    obtain rfl := Option.some.inj hn'
    exact henv

/-- GENC's byte count is 1, 2 or 3 (41_encode.md R103). -/
theorem gencByteCount_ne_zero : ∀ km1 : BitVec 2, BitVec.ofNat 2 (min (groupSize km1) 3) ≠ 0 := by decide

/-- `OLEN` comes with OK only. -/
theorem okPorts_of_olen {r : Response} {n : Nat} (h : responseOk st r) (hn : r.olen = some n) : okPorts st r := by
  rcases h with rfl | ⟨-, hok⟩ | ⟨i, x, rfl, -, -⟩ | ⟨c, -, rfl⟩
  · exact nomatch hn
  · exact hok
  · exact nomatch hn
  · exact nomatch hn

theorem withinMax_olen {r : Response} {n : Nat} (h : responseOk st r) (hn : r.olen = some n) :
    withinMax st n = true := by
  obtain ⟨-, -, holen, -, -⟩ := okPorts_of_olen h hn
  exact (overCapacity_eq_false_iff st n).1 (holen n hn)

/-- `IDX` comes with INVALID_CHARACTER only. -/
theorem withinMax_idx {r : Response} {n : Nat} (h : responseOk st r) (hn : r.idx = some n) :
    withinMax st n = true := by
  rcases h with rfl | ⟨-, hidx, -⟩ | ⟨i, x, rfl, hi, -⟩ | ⟨c, -, rfl⟩
  · exact nomatch hn
  · exact nomatch hidx.symm.trans hn
  · obtain rfl := Option.some.inj hn
    exact (overCapacity_eq_false_iff st i).1 hi
  · exact nomatch hn

/-- What the host can keep of the response ports is an envelope within `MAX_LEN`. -/
theorem envelopeOk_of_responseOk {r : Response} {b : List Byte} {n : Nat} {f : Bool} (h : responseOk st r)
    (hb : r.dst = some b) (hn : r.olen = some n) (hf : r.flag = some f) :
    envelopeOk st { envBytes := b, envLen := n } = true ∧ overCapacity st n = false := by
  obtain ⟨-, -, holen, -, henv⟩ := okPorts_of_olen h hn
  exact ⟨henv b n f hb hn hf, holen n hn⟩

end

/-- Within `MAX_LEN` and with its contract kept, a command answers with a response of `responseOk`. -/
theorem exec_responseOk_of_contractHeld {i : Instr} {s : State} (hfits : FitsMax i s) (hheld : contractHeld i s = true) :
    ∃ r, exec i s = .next (answered s r) ∧ responseOk s.straps r := by
  cases i with
  | enc =>
    rcases validText_or_firstInvalid s.src with htext | ⟨j, x, hfirst, hx⟩
    · exact ⟨_, exec_enc_of_validText (hfits _ rfl) htext, responseOk_bufferResponse _ (hfits _ rfl)⟩
    · exact ⟨_, exec_enc_of_firstInvalid (hfits _ rfl) hfirst hx,
        responseOk_invalidCharacterResponse (hfits _ rfl) hfirst hx⟩
  | envb =>
    rcases validText_or_firstInvalid s.src with htext | ⟨j, x, hfirst, hx⟩
    · have hexec := exec_envb_of_validText (hfits _ rfl) htext
      exact ⟨_, hexec, responseOk_envelopeResponse _ (hfits _ rfl) (envelopeOk_of_exec_envb hexec rfl rfl)⟩
    · exact ⟨_, exec_envb_of_firstInvalid (hfits _ rfl) hfirst hx,
        responseOk_invalidCharacterResponse (hfits _ rfl) hfirst hx⟩
  | encu =>
    have htext := (firstInvalid_eq_none_iff_validText _).1 (Option.isNone_iff_eq_none.1 hheld)
    exact ⟨_, exec_encu_of_validText (hfits _ rfl) htext, responseOk_bufferResponse _ (hfits _ rfl)⟩
  | dec | decs =>
    by_cases hlen : s.src.length = need s.len
    · exact ⟨_, exec_decoder_of_eq_need (by simp) (hfits _ rfl) hlen, responseOk_bufferResponse _ (hfits _ rfl)⟩
    · exact ⟨_, exec_checkedDecoder_of_ne_need (by simp) (hfits _ rfl) hlen, responseOk_errorResponse (.inl rfl)⟩
  | decu =>
    simp only [contractHeld, Bool.or_eq_true, decide_eq_true_eq] at hheld
    rcases hheld with hzero | hlen
    · exact ⟨_, exec_decu_of_len_eq_zero hzero, responseOk_bufferResponse _ (withinMax_zero _)⟩
    · exact ⟨_, exec_decoder_of_eq_need (by simp) (hfits _ rfl) hlen, responseOk_bufferResponse _ (hfits _ rfl)⟩
  | envp =>
    have hexec := exec_envp_of_withinMax (recovers_uLrec _ _ _) (hfits _ rfl)
    exact ⟨_, hexec, responseOk_envelopeResponse _ (hfits _ rfl) (envelopeOk_of_exec_envp hexec rfl rfl)⟩
  | envr =>
    have hcap : overCapacity s.straps s.len = false := (overCapacity_eq_false_iff _ _).2 (hfits _ rfl)
    obtain ⟨d, hexec, -⟩ := exec_envr_of_envelopeOk hcap hheld
    exact ⟨_, hexec, responseOk_bufferResponse d (hfits _ rfl)⟩
  | genc km1 vin =>
    exact ⟨_, exec_genc km1 vin s, responseOk_of_no_envelope rfl ⟨rfl, rfl⟩ nofun
      (fun _ h => Option.some.inj h ▸ gencByteCount_ne_zero km1) (.inl rfl)⟩
  | gdec km1 yin =>
    exact ⟨_, exec_gdec km1 yin s, responseOk_of_no_envelope rfl ⟨rfl, rfl⟩ nofun nofun (.inl rfl)⟩
  | mdet last =>
    exact ⟨_, exec_mdet last s, responseOk_of_no_envelope rfl ⟨rfl, rfl⟩ nofun nofun (.inl rfl)⟩
  | lrec last =>
    exact ⟨_, exec_lrec_of_withinMax (recovers_uLrec _ _ _) (hfits _ rfl), responseOk_of_no_envelope rfl ⟨rfl, rfl⟩
      (fun n h => hfits n h) nofun (.inl rfl)⟩

/-- Every command that answers gives a response of `responseOk`, and over `MAX_LEN` that is CAPACITY. -/
theorem exec_eq_answered_responseOk {i : Instr} {s t : State} (h : exec i s = .next t) :
    ∃ r, t = answered s r ∧ responseOk s.straps r := by
  have houtcome := exec_outcome i s
  rw [h] at houtcome
  cases houtcome with
  | capacity => exact ⟨_, rfl, responseOk_errorResponse (.inr (.inr rfl))⟩
  | answer hfits hheld _ =>
    obtain ⟨r, hexec, hr⟩ := exec_responseOk_of_contractHeld hfits hheld
    exact ⟨r, Host.Outcome.next.inj (h.symm.trans hexec), hr⟩

/-! ## The invariant, move by move -/

theorem answered_inv {s : State} {r : Response} (h : s.Inv) (hr : responseOk s.straps r) : (answered s r).Inv := by
  obtain ⟨hst, hlen, -, henvs⟩ := h
  exact ⟨hst, hlen, hr, henvs⟩

theorem blockMove_keepsInv {s t : State} (hinv : s.Inv) (h : blockMove s = .next t) : t.Inv := by
  rcases blockMove_cases s with ⟨-, hidle⟩ | ⟨w, e, hcw, hd, -⟩ | ⟨w, i, -, -, hrun⟩
  · exact Host.Outcome.next.inj (hidle.symm.trans h) ▸ hinv
  · have hanswer := blockMove_of_decode_error hcw hd
    exact Host.Outcome.next.inj (hanswer.symm.trans h) ▸ answered_inv hinv (responseOk_errorResponse (.inr (.inl rfl)))
  · obtain ⟨r, rfl, hr⟩ := exec_eq_answered_responseOk (hrun.symm.trans h)
    exact answered_inv hinv hr

theorem hostMove_keepsInv {a : HostAct} {s t : State} (hinv : s.Inv) (h : hostMove a s = .next t) : t.Inv := by
  obtain ⟨hst, hlen, hresp, henvs⟩ := hinv
  rcases hostMove_cases h with ⟨c, -, hwf, rfl⟩ | ⟨p, -, rfl⟩ | ⟨b, n, f, -, hb, hn, hf, rfl⟩ | ⟨b, -, -, rfl⟩ | ⟨-, rfl⟩
  · exact ⟨hst, hwf, hresp, henvs⟩
  · exact ⟨hst, hlen, hresp, henvs⟩
  · refine ⟨hst, hlen, hresp, fun e he => ?_⟩
    rcases List.mem_append.1 he with hold | hnew
    · exact henvs e hold
    · obtain rfl := List.mem_singleton.1 hnew
      exact envelopeOk_of_responseOk hresp hb hn hf
  · exact ⟨hst, hlen, hresp, henvs⟩
  · exact ⟨hst, hlen, .inl rfl, henvs⟩

theorem resetWith_inv {st : Straps} (hst : st.wf = true) : (State.resetWith st).Inv :=
  ⟨hst, lenFits_of_withinMax hst (withinMax_zero st), .inl rfl, nofun⟩

end Sys2Proof.Machine

namespace Sys2Proof.Proofs

open Sys2Proof Sys2Proof.Machine

/-- Settles O50: a step is an act of the host or the block's move, and each keeps the invariant; the rest of the host's
list has no part in it. -/
theorem stepKeepsTheInvariant : Obligations.StepKeepsTheInvariant := by
  intro s t hinv h
  rcases step_cases s with ⟨a, rest, -, -, hstep⟩ | ⟨-, hstep⟩
  · exact hostMove_keepsInv (s := { s with host := rest }) hinv (hstep.symm.trans h)
  · exact blockMove_keepsInv hinv (hstep.symm.trans h)

/-- Settles O45: a command that answers delivers a response, which touches no other field. -/
theorem commandsChangeOnlyTheResponsePorts : Obligations.CommandsChangeOnlyTheResponsePorts := by
  intro i s t h
  obtain ⟨r, rfl⟩ := exec_next_is_respond h
  exact ⟨respond_straps r s, respond_len r s, congrArg List.length (respond_src r s),
    fun a => congrArg (memRead · a) (respond_src r s), respond_envelopes r s, respond_host r s, respond_cw r s⟩

/-- Settles O53: both ports carry lengths within `MAX_LEN`, which fits by R231. -/
theorem responseLengthsFitTheirPorts : Obligations.ResponseLengthsFitTheirPorts := by
  rintro s ⟨hst, -, hresp, -⟩
  exact ⟨fun n hn => lenFits_of_withinMax hst (withinMax_olen hresp hn),
    fun n hn => lenFits_of_withinMax hst (withinMax_idx hresp hn)⟩

/-- Settles O52: the length on the port is 0, and no port and no envelope holds a value. -/
theorem resetMeetsTheInvariant : Obligations.ResetMeetsTheInvariant :=
  ⟨resetWith_inv (by decide), fun _ => resetWith_inv⟩

end Sys2Proof.Proofs
end

section
/-! PROOFS. Words of the spec's vectors (95_test_vectors.md), the idle block, what reset leaves (10_state.md R29,
70_reset_and_hazards.md R230), and the host's acts between commands (10_state.md R22, R23, R27). -/

namespace Sys2Proof.Machine

/-! ## The idle block (10_state.md R29) -/

theorem step_eq_blockMove_of_no_act {s : State} (hhost : s.host = []) : step s = blockMove s := by
  have hnext : nextHostAct s = none := by rw [nextHostAct, hhost]
  rw [step, systemMove, hnext]

theorem blockMove_of_idle {s : State} (hcw : s.cw = none) : blockMove s = .next s := by
  rw [blockMove, hcw]

/-! ## Reading a port and keeping an envelope (10_state.md R23, R27) -/

theorem readPort_eq_error_iff (r : Response) (p : Port) :
    readPort r p = .error (.portHasNoValue p) ↔ r.portValue p = none := by
  have hcarry (o : Option PortValue) :
      (match o with
        | some x => Except.ok x
        | none => .error (Fault.portHasNoValue p)) = .error (.portHasNoValue p) ↔ o = none := by
    cases o <;> simp
  cases p <;> exact hcarry _

theorem readPort_empty (p : Port) : readPort Response.empty p = .error (.portHasNoValue p) :=
  (readPort_eq_error_iff _ p).2 (by cases p <;> rfl)

/-- A read delivers a value or faults with the port's name. -/
theorem readPort_eq_error_of_not_ok {r : Response} {p : Port} (h : ¬ ∃ v, readPort r p = .ok v) :
    readPort r p = .error (.portHasNoValue p) := by
  rw [readPort_eq_error_iff, Option.eq_none_iff_forall_ne_some]
  exact fun v hv => h ⟨v, (readPort_eq_ok_iff r p v).2 hv⟩

theorem hostRead_of_ok {s : State} {p : Port} {v : PortValue} (h : readPort s.resp p = .ok v) :
    hostRead p s = .next s := by
  rw [hostRead, h]

theorem hostRead_of_error {s : State} {p : Port} {f : Fault} (h : readPort s.resp p = .error f) :
    hostRead p s = .fault f := by
  rw [hostRead, h]

theorem hostKeepEnvelope_of_some {s : State} {b : List Byte} {n : Nat} {f : Bool} (hb : s.resp.dst = some b)
    (hn : s.resp.olen = some n) (hf : s.resp.flag = some f) :
    hostKeepEnvelope s = .next { s with envelopes := s.envelopes ++ [{ envBytes := b, envLen := n }] } := by
  rw [hostKeepEnvelope, hb, hn, hf]

/-- The act asks for `DST`, `OLEN` and `FLAG` in this order, and faults with the first that carries no value. -/
theorem hostKeepEnvelope_of_none {s : State} (h : s.resp.dst = none ∨ s.resp.olen = none ∨ s.resp.flag = none) :
    ∃ p, (p = .dst ∨ p = .olen ∨ p = .flag) ∧ readPort s.resp p = .error (.portHasNoValue p) ∧
      hostKeepEnvelope s = .fault (.portHasNoValue p) := by
  simp only [readPort_eq_error_iff]
  cases hb : s.resp.dst with
  | none => exact ⟨.dst, .inl rfl, by rw [Response.portValue, hb]; rfl, by rw [hostKeepEnvelope, hb]⟩
  | some b =>
    cases hn : s.resp.olen with
    | none => exact ⟨.olen, .inr (.inl rfl), by rw [Response.portValue, hn]; rfl, by rw [hostKeepEnvelope, hb, hn]⟩
    | some n =>
      have hf : s.resp.flag = none := by simpa [hb, hn] using h
      exact ⟨.flag, .inr (.inr rfl), by rw [Response.portValue, hf]; rfl, by rw [hostKeepEnvelope, hb, hn, hf]⟩

end Sys2Proof.Machine

namespace Sys2Proof.Proofs

open Sys2Proof Sys2Proof.Machine

/-- Settles O4: seven fixed words, each decoded by evaluation. -/
theorem specWordsDecode : Obligations.SpecWordsDecode := by
  refine ⟨?_, ?_, ?_, ?_, ?_, ?_, ?_⟩ <;> decide

/-- Settles O7: with no act of the host the block moves, and with no command it stays. -/
theorem idleBlockStays : Obligations.IdleBlockStays := fun _ hcw hhost =>
  (step_eq_blockMove_of_no_act hhost).trans (blockMove_of_idle hcw)

/-- Settles O8: no port of the empty response carries a value, and the reset block is idle (O7). -/
theorem resetLeavesNoPortWithAValue : Obligations.ResetLeavesNoPortWithAValue :=
  ⟨readPort_empty, rfl, rfl, rfl, rfl, idleBlockStays State.reset rfl rfl, rfl, rfl, rfl, rfl, rfl⟩

/-- Settles O9: a reset waits for nothing, so it is the next step; the block is then idle. -/
theorem assertedResetDropsTheCommand : Obligations.AssertedResetDropsTheCommand := by
  intro s rest hhost
  exact ⟨hostReset { s with host := rest }, step_eq_hostMove hhost rfl, hostReset_cw _, readPort_empty,
    hostReset_straps _, hostReset_envelopes _, hostReset_len _, hostReset_src _, hostReset_host _,
    blockMove_of_idle (hostReset_cw _)⟩

/-- Settles O10: both cases of the step that issues. -/
theorem issuePresentsTheCommand : Obligations.IssuePresentsTheCommand := by
  intro s c rest hcw hhost
  rw [step_of_issue hcw hhost]
  exact ⟨fun hwf => if_pos hwf, fun hwf => if_neg (Bool.eq_false_iff.1 hwf)⟩

/-- Settles O11: on an idle block the read is the next step, and it delivers a value or faults with the port's name. -/
theorem readingAPortWithoutValueFaults : Obligations.ReadingAPortWithoutValueFaults := by
  intro s p rest hcw hhost
  have hstep : step s = hostRead p { s with host := rest } := step_eq_hostMove hhost (by simp [hcw])
  rw [hstep]
  exact ⟨fun ⟨_, hv⟩ => hostRead_of_ok hv, fun hnone => hostRead_of_error (readPort_eq_error_of_not_ok hnone)⟩

/-- Settles O13: on an idle block keeping an envelope is the next step, and it asks the three ports. -/
theorem keepingAnEnvelopeNeedsAConstructor : Obligations.KeepingAnEnvelopeNeedsAConstructor := by
  intro s rest hcw hhost
  have hstep : step s = hostKeepEnvelope { s with host := rest } := step_eq_hostMove hhost (by simp [hcw])
  rw [hstep]
  exact ⟨fun _ _ _ => hostKeepEnvelope_of_some (s := { s with host := rest }),
    hostKeepEnvelope_of_none (s := { s with host := rest })⟩

end Sys2Proof.Proofs
end
